-- ==== Sys2Proof/Word.lean ====
section
/-! DEFINITION. The bit-vector types of the machine. Every register value, address and `pc` is a vector of 64 bits
(R11, R22), a byte is 8 bits (R60), an instruction parcel is 16 bits (R90), a register id is 5 bits (R21), and bit 0 is
the least significant bit throughout (R9). -/

namespace Sys2Proof

/-- A register value, an address or the `pc`: XLEN = 64 bits (R11, R22, R30). -/
abbrev Word := BitVec 64

/-- One byte of memory, the unit of addressing (R60). -/
abbrev Byte := BitVec 8

/-- A 16-bit instruction parcel (R90, R91). -/
abbrev Parcel := BitVec 16

/-- A "Register ID" of the main register table (R21). -/
abbrev RegId := BitVec 5

/-- The value of a 3-bit field named "HGP" (R99). -/
abbrev Hgp := BitVec 3

/-- The value of the 2-bit field "Address IDR" (R99). -/
abbrev Idr := BitVec 2

/-- A CSR address (R36). -/
abbrev CsrAddr := BitVec 24

end Sys2Proof
end

