-- ==== Sys2Proof/Config.lean ====
section
/-! DEFINITION. What an implementation fixes: the parameters of the spec's table R8, as data. A machine carries one
`Config` and no step changes it, so that a claim may name a parameter or hold for every value of it (R8, R15). The values
the spec decides are `Decisions.decided` in Machine/Decided.lean. The two opaque constants at the end are the model's free
values: nothing can be proved of what they are.

A parameter of R8 whose other values have no rule in the spec has a type of one value here (log 8): `Xlen`, `Bit0`,
`Unassigned`, `NoStrap`, `Translation` and `CcdValues`. -/

namespace Sys2Proof

/-- `XLEN`: the width of a main register and of `pc` (R11, R22, D1), which is the width of `Word`. -/
inductive Xlen where
  | x64
deriving DecidableEq, Repr

/-- `XLEN` in bits. -/
def Xlen.bits : Xlen → Nat
  | .x64 => 64

/-- `BIT0`: which end of an instruction or register bit 0 is (R9, D2). -/
inductive Bit0 where
  | leastSignificant
deriving DecidableEq, Repr

/-- The privilege modes the spec names (R34, R220). -/
inductive Mode where
  | user | supervisor
deriving DecidableEq, Repr

/-- `UNASSIGNED`: the outcome of a parcel that is no instruction: a model fault, never a no-op and never a trap (R105,
D20). -/
inductive Unassigned where
  | modelFault
deriving DecidableEq, Repr

/-- `NO_STRAP`: the outcome of a trap with `strap.on` clear: the core stops for good, a model fault, which stands for all
three outcomes the source permits (R212, D29). -/
inductive NoStrap where
  | modelFault
deriving DecidableEq, Repr

/-- `TRANSLATE`: address translation is off (R72, D32). -/
inductive Translation where
  | off
deriving DecidableEq, Repr

/-- `CCD_VALUES`: the meaning of values written to or read from the Core Communication Device. It is OPEN, and an access is
refused because no value has one (R232, R234, D34). -/
inductive CcdValues where
  | refused
deriving DecidableEq, Repr

/-- The three external trap causes (R201, R205). -/
inductive ExtCause where
  | msi | timer | extDev
deriving DecidableEq, Repr

/-- The nine internal trap causes, in the order of the cause table (R201). -/
inductive IntCause where
  | misalignedInstr | misalignedRead | misalignedWrite
  | invalidInstr | invalidRead | invalidWrite
  | instrPageFault | readPageFault | writePageFault
deriving DecidableEq, Repr

/-- A trap cause is the pair (Source, Number): its source here is the constructor (R201). -/
inductive Cause where
  | external (c : ExtCause)
  | internal (c : IntCause)
deriving DecidableEq, Repr

/-- The kinds of access `ValidPhys` and the cause table tell apart (R74, R201). -/
inductive AccessKind where
  | read | write | execute
deriving DecidableEq, Repr

/-- `ENDIAN`: byte order of data and of instruction fetch (R61, R62, D3). -/
inductive Endian where
  | little | big
deriving DecidableEq, Repr

/-- `RELI_OFFSET_EXT`: the extension of the RelIAcc offset (R97, D8). -/
inductive OffsetExt where
  | zero | sign
deriving DecidableEq, Repr

/-- `LD_EXT`: the upper 48 bits of the destination of `cgc.ld`: cleared, copies of bit 15, or kept (R121, D9). -/
inductive LoadExt where
  | zero | sign | keep
deriving DecidableEq, Repr

/-- `ALIGN`: the multiple an address must be of, for a fetch, a 2-byte and an 8-byte access (R64, R65, D11). -/
structure Alignment where
  fetch : Nat
  half : Nat
  octa : Nat
deriving DecidableEq, Repr

/-- `DIV_MODE`: signedness and rounding of division; the three readings R142 lists (D13). -/
inductive DivMode where
  | signedTowardZero | signedTowardMinusInf | unsigned
deriving DecidableEq, Repr

/-- `DIV0`: a division the readings give no quotient (R142, D14). `stop` is the spec's decision. DESIGN CHOICE (log 12):
`freeValue` lets the run go on with a quotient nothing is known of. -/
inductive DivZero where
  | stop | freeValue
deriving DecidableEq, Repr

/-- `NOT_READING`: the three readings of "Inverts r0 and r1" (R135, D15). -/
inductive NotReading where
  | complementOfR0 | bothInPlace | complementOfAnd
deriving DecidableEq, Repr

/-- `SRR_FILL`: the bits a right shift brings in (R143, D16). -/
inductive ShiftFill where
  | zeros | signBit
deriving DecidableEq, Repr

/-- `SHAMT_MODE`: register shift amounts of 64 and more: the low 6 bits, or the whole amount (R143, D17). -/
inductive ShamtMode where
  | mod64 | whole
deriving DecidableEq, Repr

/-- `ARACC_RSVD`: ARAcc bits 9:8 not zero: an unassigned encoding, or ignored (R100, D19, U1). -/
inductive ReservedBits where
  | unassigned | ignored
deriving DecidableEq, Repr

/-- `SRET_VALUE`: what `sret` receives on an internal trap: the `pc` of the instruction that raised it, or the address
after it (R214, D27, N63). On an external trap both are the `pc` at the boundary. -/
inductive SretValue where
  | faultingPc | followingPc
deriving DecidableEq, Repr

/-- `STRAP_BIT63`: bit 63 of the handler address (R213, D28). -/
inductive StrapBit63 where
  | zero | copyOfBit62
deriving DecidableEq, Repr

/-- `EXC_PRIORITY`: which cause an access that is both misaligned and invalid reports (R207, D30). -/
inductive ExcPriority where
  | misalignedFirst | invalidFirst
deriving DecidableEq, Repr

/-- `IFETCH_COHERENT`: whether a fetch of stored-to bytes has a meaning (R79, D37). -/
inductive FetchCoherence where
  | refused | coherent
deriving DecidableEq, Repr

/-- `SCAUSE_ENCODE` as a table: the value of `scause` for each of the twelve causes, in the order of the cause table. It
must be injective on them (R211), so no table that gives two causes one value can be built. -/
structure ScauseTable where
  values : Vector Word 12
  injective : values.toList.Nodup
deriving DecidableEq, Repr

/-- The parameters of R8 that the spec decides. -/
structure Decisions where
  /-- `XLEN` -/
  xlen : Xlen
  /-- `BIT0` -/
  bit0 : Bit0
  /-- `ENDIAN` -/
  endian : Endian
  /-- `SIZE_CODE`, 16 bits: bits 1:0 of every 16-bit instruction (R90) -/
  sizeCode16 : BitVec 2
  /-- `SIZE_CODE`, 32 bits (R90) -/
  sizeCode32 : BitVec 2
  /-- `SIZE_CODE`, 64 bits (R90) -/
  sizeCode64 : BitVec 2
  /-- `SIZE_CODE`, more than 64 bits (R90, R183) -/
  sizeCodeLonger : BitVec 2
  /-- `IDR_MAP`: register id selected by each value of the "Address IDR" field (R26, R99) -/
  idrMap : Vector RegId 4
  /-- `HGP_MAP`: register id selected by each value of an HGP field (R26, R99) -/
  hgpMap : Vector RegId 8
  /-- `RELI_OFFSET_EXT` -/
  offsetExt : OffsetExt
  /-- `LD_EXT` -/
  ldExt : LoadExt
  /-- `ALIGN` -/
  align : Alignment
  /-- `DIV_MODE` -/
  divMode : DivMode
  /-- `DIV0` -/
  div0 : DivZero
  /-- `NOT_READING` -/
  notReading : NotReading
  /-- `SRR_FILL` -/
  srrFill : ShiftFill
  /-- `SHAMT_MODE` -/
  shamtMode : ShamtMode
  /-- `ARACC_RSVD` -/
  araccRsvd : ReservedBits
  /-- `UNASSIGNED` -/
  unassigned : Unassigned
  /-- `MODES`: the privilege modes, in ascending order (R34, R220, D24) -/
  modes : List Mode
  /-- `SCAUSE_ENCODE` (R211) -/
  scauseTable : ScauseTable
  /-- `SRET_VALUE` -/
  sretValue : SretValue
  /-- `STRAP_BIT63` -/
  strapBit63 : StrapBit63
  /-- `NO_STRAP` -/
  noStrap : NoStrap
  /-- `EXC_PRIORITY` -/
  excPriority : ExcPriority
  /-- `TRANSLATE` -/
  translation : Translation
  /-- `IFETCH_COHERENT` -/
  ifetch : FetchCoherence
  /-- `CCR_STRIDE`: bytes between Core Control registers (R231) -/
  ccrStride : Nat
  /-- `CSR_ADDR_BITS`: width of a CSR address (R36, D39) -/
  csrAddrBits : Nat
deriving DecidableEq, Repr

/-- A stretch of the platform's physical address space, and the kinds of access its bytes exist for. -/
structure Region where
  base : Nat
  size : Nat
  read : Bool
  write : Bool
  execute : Bool
deriving DecidableEq, Repr

/-- The configuration of one machine: the decided parameters, and those the spec leaves OPEN (R8). -/
structure Config where
  dec : Decisions
  /-- the data of `ValidPhys`: which physical bytes exist, per kind of access (R74, D33) -/
  platform : List Region
  /-- `PA_BITS`: implemented physical address bits, at most 64 (R8, D41) -/
  paBits : Nat
  /-- `NCORES` (R236, D36) -/
  nCores : Nat
  /-- `CORE_ID`: this core's number (R236, D36) -/
  coreId : Nat
  /-- `CCD_VALUES` (R232, R234, D34) -/
  ccdValues : CcdValues
  /-- `ATOMIC`: whether another core sees an aligned access as one (R70, D40). With one core it has no effect, and nothing
  reads it. -/
  atomic : Bool
  /-- `RESET_PC`: the `pc` of the launch state (R47, R250, D35) -/
  resetPc : Word
  /-- `END_PC`, where a claim sets one: the address at which the harness ends a run (R262, D43) -/
  endPc : Option Word
deriving DecidableEq, Repr

/-- FREE VALUE (log 2): the byte at a physical address before anything has written it, "an unconstrained unknown" (R48). -/
opaque Config.unwrittenByte : Word → Byte

/-- FREE VALUE (log 12): the quotient of a division that has none, as a function of dividend and divisor, for a machine
whose `DIV0` parameter is `freeValue` (R142, D14). -/
opaque Config.divCornerValue : Word → Word → Word

end Sys2Proof
end

