-- ==== Sys2Proof/Machine/Decided.lean ====
section
/-! DEFINITION. The values the spec decides for its parameters (R8, 92_eei_decisions.md). Each is the spec's own choice,
not a statement of its source (UNVERIFIED, log 14). -/

namespace Sys2Proof

/-- Every parameter of `Decisions` at the value of R8's column "decided value". -/
def Decisions.decided : Decisions where
  xlen := .x64
  bit0 := .leastSignificant
  endian := .little
  sizeCode16 := 0b00#2
  sizeCode32 := 0b01#2
  sizeCode64 := 0b10#2
  sizeCodeLonger := 0b11#2
  idrMap := #v[4, 5, 6, 7]
  hgpMap := #v[8, 9, 10, 11, 12, 13, 14, 15]
  offsetExt := .zero
  ldExt := .zero
  align := { fetch := 2, half := 2, octa := 8 }
  divMode := .signedTowardZero
  div0 := .stop
  notReading := .complementOfR0
  srrFill := .zeros
  shamtMode := .mod64
  araccRsvd := .unassigned
  unassigned := .modelFault
  modes := [.user, .supervisor]
  scauseTable := { values := #v[0x1, 0x3, 0x5, 0x0, 0x2, 0x4, 0x6, 0x8, 0xA, 0xC, 0xE, 0x10], injective := by decide }
  sretValue := .faultingPc
  strapBit63 := .zero
  noStrap := .modelFault
  excPriority := .misalignedFirst
  translation := .off
  ifetch := .refused
  ccrStride := 2
  csrAddrBits := 24

/-- The configuration of the machine after reset: the decided parameters, one core, and a platform on which every
physical byte exists for every kind of access. DESIGN CHOICE (log 3): `ValidPhys`, `PA_BITS`, `CORE_ID` and
`ATOMIC` are OPEN in R8, and so is `RESET_PC` (log 6); no `END_PC` is set; the vectors of 95_test_vectors.md take `ValidPhys` true everywhere. -/
def Config.atReset : Config where
  dec := Decisions.decided
  platform := [{ base := 0, size := 2 ^ 64, read := true, write := true, execute := true }]
  paBits := 64
  nCores := 1
  coreId := 0
  ccdValues := .refused
  atomic := false
  resetPc := 0
  endPc := none

end Sys2Proof
end

