-- ==== Sys2Proof/Syntax.lean ====
section
/-! DEFINITION. The instructions: one constructor per row of spec/opcode_table.json, 22 in all (R104), in the three
formats RelIAcc (R93), ARAcc (R94) and AIAcc (R95). Fields are the encoding's own, so that no operand value of an encoding
is shut out. The RelIAcc offset is kept as the 6-bit byte offset whose bit 0 is not encoded (R97). -/

namespace Sys2Proof

/-- The 22 instructions (R104). A mnemonic that the source uses in two formats has two constructors, `…R` for the
register form and `…I` for the immediate form (90_conflicts.md C9). In the ARAcc format `r0` is the source and `r1` the
second source and destination (R130). -/
inductive Instr where
  /-- `cgc.ld rd, off(ra)`: "Loads 2 bytes" (R121). -/
  | ld (rd : Hgp) (off : BitVec 6) (ra : Idr)
  /-- `cgc.lo rd, off(ra)`: "Loads 8 bytes" (R122). -/
  | lo (rd : Hgp) (off : BitVec 6) (ra : Idr)
  /-- `cgc.sd rs, off(ra)`: "Stores 2 bytes" (R123). -/
  | sd (rs : Hgp) (off : BitVec 6) (ra : Idr)
  /-- `cgc.so rs, off(ra)`: "Stores 8 bytes" (R124). -/
  | so (rs : Hgp) (off : BitVec 6) (ra : Idr)
  /-- `cgc.add r0, r1`: "Adds r0 into r1" (R131). -/
  | add (r0 r1 : Hgp)
  /-- `cgc.sub r0, r1`: "Subtracts r0 from r1" (R132). -/
  | sub (r0 r1 : Hgp)
  /-- `cgc.mul r0, r1`: "Multiplies r1 by r0" (R133). -/
  | mulR (r0 r1 : Hgp)
  /-- `cgc.div r0, r1`: "Divides r1 by r0" (R134). -/
  | divR (r0 r1 : Hgp)
  /-- `cgc.not r0, r1`: "Inverts r0 and r1" (R135). -/
  | notR (r0 r1 : Hgp)
  /-- `cgc.srl r0, r1`: "Shifts r1 left by r0 bits" (R136). -/
  | srlR (r0 r1 : Hgp)
  /-- `cgc.srr r0, r1`: "Shifts r1 right by r0 bits" (R137). -/
  | srrR (r0 r1 : Hgp)
  /-- `cgc.xor r0, r1`: "Xor's r1 with r0" (R138). -/
  | xorR (r0 r1 : Hgp)
  /-- `cgc.and r0, r1`: "And's r1 with r0" (R139). -/
  | andR (r0 r1 : Hgp)
  /-- `cgc.or r0, r1`: "Or's r1 with r0" (R140). -/
  | orR (r0 r1 : Hgp)
  /-- `cgc.addiu rd, imm`: "Adds a non-sign extended imm to rd" (R151). -/
  | addiu (rd : Hgp) (imm : BitVec 6)
  /-- `cgc.addi rd, imm`: "Adds a sign extended imm to rd" (R152). -/
  | addi (rd : Hgp) (imm : BitVec 6)
  /-- `cgc.mul rd, imm`: "Multiplies rd by a sign extended imm" (R153). -/
  | mulI (rd : Hgp) (imm : BitVec 6)
  /-- `cgc.div rd, imm`: "Divides rd by a sign extended imm" (R154). -/
  | divI (rd : Hgp) (imm : BitVec 6)
  /-- `cgc.srl rd, imm`: "Shifts rd left by imm bits" (R155). -/
  | srlI (rd : Hgp) (imm : BitVec 6)
  /-- `cgc.srr rd, imm`: "Shifts rd right by imm bits" (R156). -/
  | srrI (rd : Hgp) (imm : BitVec 6)
  /-- `cgc.xor rd, imm`: "Xor's rd with a sign extended imm" (R157). -/
  | xorI (rd : Hgp) (imm : BitVec 6)
  /-- `cgc.or rd, imm`: "Or's rd with a sign extended imm" (R158). -/
  | orI (rd : Hgp) (imm : BitVec 6)
deriving DecidableEq, Repr

/-- The four 16-bit formats (R92). -/
inductive Format where
  | relIAcc | arAcc | aiAcc | ctrl
deriving DecidableEq, Repr

/-- The format of an instruction; no instruction has the Ctrl format (R92, R104, R170). -/
def Instr.format : Instr → Format
  | .ld _ _ _ => .relIAcc
  | .lo _ _ _ => .relIAcc
  | .sd _ _ _ => .relIAcc
  | .so _ _ _ => .relIAcc
  | .add _ _ => .arAcc
  | .sub _ _ => .arAcc
  | .mulR _ _ => .arAcc
  | .divR _ _ => .arAcc
  | .notR _ _ => .arAcc
  | .srlR _ _ => .arAcc
  | .srrR _ _ => .arAcc
  | .xorR _ _ => .arAcc
  | .andR _ _ => .arAcc
  | .orR _ _ => .arAcc
  | .addiu _ _ => .aiAcc
  | .addi _ _ => .aiAcc
  | .mulI _ _ => .aiAcc
  | .divI _ _ => .aiAcc
  | .srlI _ _ => .aiAcc
  | .srrI _ _ => .aiAcc
  | .xorI _ _ => .aiAcc
  | .orI _ _ => .aiAcc

/-- The lengths other than 16 bits that the size field can announce (R90). -/
inductive LongerLength where
  | bits32 | bits64 | moreThan64
deriving DecidableEq, Repr

/-- Why a parcel is no instruction: the ways R105 lists. -/
inductive DecodeReject where
  /-- bits 1:0 announce an instruction of another length, none of which is defined (R91, R184). The length is missing only
  where the configured size codes do not use the value. -/
  | longerEncoding (len : Option LongerLength)
  /-- the Ctrl format, whose instruction table is empty (R96, R171) -/
  | ctrlFormat
  /-- ARAcc opcode 0b0000 or 0b1011 to 0b1111 (R144) -/
  | araccOpcode
  /-- ARAcc bits 9:8 not 0b00 (R100) -/
  | araccReservedBits
  /-- fewer than two bytes were given to the byte decoder; no fetch does this -/
  | truncated
deriving DecidableEq, Repr

end Sys2Proof
end

