-- ==== Sys2Proof/WellFormed.lean ====
section
/-! DEFINITION. Which instructions the encoding can express. Every field but one takes every value of its type. The
RelIAcc offset is a multiple of 2: "Offset bit 0 is not encoded and is 0" (R97). -/

namespace Sys2Proof

/-- The offset of a RelIAcc instruction has bit 0 clear (R97). -/
def offsetEven (off : BitVec 6) : Bool := !off.getLsbD 0

/-- An instruction the encoding can express. -/
def Instr.wellFormed : Instr → Bool
  | .ld _ off _ => offsetEven off
  | .lo _ off _ => offsetEven off
  | .sd _ off _ => offsetEven off
  | .so _ off _ => offsetEven off
  | .add _ _ => true
  | .sub _ _ => true
  | .mulR _ _ => true
  | .divR _ _ => true
  | .notR _ _ => true
  | .srlR _ _ => true
  | .srrR _ _ => true
  | .xorR _ _ => true
  | .andR _ _ => true
  | .orR _ _ => true
  | .addiu _ _ => true
  | .addi _ _ => true
  | .mulI _ _ => true
  | .divI _ _ => true
  | .srlI _ _ => true
  | .srrI _ _ => true
  | .xorI _ _ => true
  | .orI _ _ => true

end Sys2Proof
end

