-- ==== Sys2Proof/Decode.lean ====
section
/-! DEFINITION. From bytes to an instruction, or to the reason there is none (R90 to R105), and back. Decoding takes the
parameters it depends on (`BIT0`, `SIZE_CODE`, `ARACC_RSVD`, `ENDIAN`) from the machine's `Decisions`; every other bit position
and opcode is the same under every choice (R90). -/

namespace Sys2Proof

/-- The field "Primary Encoding Size", bits 1:0 (R90). -/
def fieldSize (w : Parcel) : BitVec 2 := w.extractLsb' 0 2

/-- The field "Encoding", bits 3:2 (R92). -/
def fieldEncoding (w : Parcel) : BitVec 2 := w.extractLsb' 2 2

/-- RelIAcc "Opcode", bits 5:4 (R93). -/
def fieldRelOpcode (w : Parcel) : BitVec 2 := w.extractLsb' 4 2

/-- RelIAcc "Address IDR", bits 7:6 (R93). -/
def fieldIdr (w : Parcel) : Idr := w.extractLsb' 6 2

/-- RelIAcc "Source/Destination HGP Register", bits 10:8 (R93). -/
def fieldRelHgp (w : Parcel) : Hgp := w.extractLsb' 8 3

/-- RelIAcc "Immediate Offset Bits 1..5", bits 15:11, with the unencoded offset bit 0 = 0 below them (R97). -/
def fieldOffset (w : Parcel) : BitVec 6 := w.extractLsb' 11 5 ++ 0b0#1

/-- ARAcc "Opcode", bits 7:4 (R94). -/
def fieldArOpcode (w : Parcel) : BitVec 4 := w.extractLsb' 4 4

/-- ARAcc "Reserved", bits 9:8 (R94, R100). -/
def fieldReserved (w : Parcel) : BitVec 2 := w.extractLsb' 8 2

/-- ARAcc "HGP Reg0", bits 12:10 (R94). -/
def fieldReg0 (w : Parcel) : Hgp := w.extractLsb' 10 3

/-- ARAcc "HGP Reg1/Destination Register", bits 15:13 (R94). -/
def fieldReg1 (w : Parcel) : Hgp := w.extractLsb' 13 3

/-- AIAcc "Opcode", bits 6:4 (R95). -/
def fieldAiOpcode (w : Parcel) : BitVec 3 := w.extractLsb' 4 3

/-- AIAcc "HGP Destination Register", bits 9:7 (R95). -/
def fieldAiHgp (w : Parcel) : Hgp := w.extractLsb' 7 3

/-- AIAcc "Immediate Bits 0..5", bits 15:10 (R95). -/
def fieldImm (w : Parcel) : BitVec 6 := w.extractLsb' 10 6

/-- The RelIAcc instruction an opcode selects: every value of the field is assigned (R101, C2). -/
def relIAccOf (op : BitVec 2) (reg : Hgp) (off : BitVec 6) (ra : Idr) : Instr :=
  match op with
  | 0b00#2 => .ld reg off ra
  | 0b01#2 => .lo reg off ra
  | 0b10#2 => .sd reg off ra
  | 0b11#2 => .so reg off ra

/-- The ARAcc instruction an opcode selects: ten of the sixteen values are assigned (R102, R144). -/
def arAccOf (op : BitVec 4) (r0 r1 : Hgp) : Except DecodeReject Instr :=
  match op with
  | 0b0001#4 => .ok (.add r0 r1)
  | 0b0010#4 => .ok (.sub r0 r1)
  | 0b0011#4 => .ok (.mulR r0 r1)
  | 0b0100#4 => .ok (.divR r0 r1)
  | 0b0101#4 => .ok (.notR r0 r1)
  | 0b0110#4 => .ok (.srlR r0 r1)
  | 0b0111#4 => .ok (.srrR r0 r1)
  | 0b1000#4 => .ok (.xorR r0 r1)
  | 0b1001#4 => .ok (.andR r0 r1)
  | 0b1010#4 => .ok (.orR r0 r1)
  | _ => .error .araccOpcode

/-- The AIAcc instruction an opcode selects: every value of the field is assigned (R103). -/
def aiAccOf (op : BitVec 3) (rd : Hgp) (imm : BitVec 6) : Instr :=
  match op with
  | 0b000#3 => .addiu rd imm
  | 0b001#3 => .addi rd imm
  | 0b010#3 => .mulI rd imm
  | 0b011#3 => .divI rd imm
  | 0b100#3 => .srlI rd imm
  | 0b101#3 => .srrI rd imm
  | 0b110#3 => .xorI rd imm
  | 0b111#3 => .orI rd imm

/-- Whether ARAcc bits 9:8 make a parcel an unassigned encoding (R100, D19). -/
def reservedBitsRefused (d : Decisions) (rsvd : BitVec 2) : Bool :=
  match d.araccRsvd with
  | .unassigned => rsvd != 0b00#2
  | .ignored => false

/-- A parcel with bit 0 of the instruction at index 0 (R9). -/
def numberedFromBit0 (b : Bit0) (w : Parcel) : Parcel :=
  match b with
  | .leastSignificant => w

/-- The length a size field other than the 16-bit one announces (R90, R91). -/
def longerLength (d : Decisions) (size : BitVec 2) : Option LongerLength :=
  if size = d.sizeCode32 then some .bits32
  else if size = d.sizeCode64 then some .bits64
  else if size = d.sizeCodeLonger then some .moreThan64
  else none

/-- Decoding an instruction's bits: the length from bits 1:0, then the format from bits 3:2, then the format's own fields (R91, R92,
R104, R105). Hints are encoded nowhere and no Ctrl parcel is one (R106, R171, R173). -/
def decodeNumbered (d : Decisions) (w : Parcel) : Except DecodeReject Instr :=
  if fieldSize w ≠ d.sizeCode16 then .error (.longerEncoding (longerLength d (fieldSize w)))
  else match fieldEncoding w with
    | 0b00#2 =>
      if reservedBitsRefused d (fieldReserved w) then .error .araccReservedBits
      else arAccOf (fieldArOpcode w) (fieldReg0 w) (fieldReg1 w)
    | 0b01#2 => .ok (relIAccOf (fieldRelOpcode w) (fieldRelHgp w) (fieldOffset w) (fieldIdr w))
    | 0b10#2 => .ok (aiAccOf (fieldAiOpcode w) (fieldAiHgp w) (fieldImm w))
    | 0b11#2 => .error .ctrlFormat

/-- Decoding one parcel (R9, R91). -/
def decode (d : Decisions) (w : Parcel) : Except DecodeReject Instr := decodeNumbered d (numberedFromBit0 d.bit0 w)

/-- The parcel two bytes hold, the byte at the lower address first (R62, D3). -/
def parcelOfBytes (e : Endian) (b0 b1 : Byte) : Parcel :=
  match e with
  | .little => b1 ++ b0
  | .big => b0 ++ b1

/-- The two bytes of a parcel, the byte at the lower address first (R62, D3). -/
def bytesOfParcel (e : Endian) (w : Parcel) : List Byte :=
  match e with
  | .little => [w.extractLsb' 0 8, w.extractLsb' 8 8]
  | .big => [w.extractLsb' 8 8, w.extractLsb' 0 8]

/-- The decoder over bytes, lowest address first: the instruction and the bytes after it. Every instruction is 2 bytes
long (R30, R91). -/
def decodeBytes (d : Decisions) : List Byte → Except DecodeReject (Instr × List Byte)
  | b0 :: b1 :: rest => (decode d (parcelOfBytes d.endian b0 b1)).map fun i => (i, rest)
  | _ => .error .truncated

/-- A RelIAcc parcel from its fields, bit 15 first; offset bit 0 is dropped (R93, R97). -/
def encodeRelIAcc (d : Decisions) (op : BitVec 2) (reg : Hgp) (off : BitVec 6) (ra : Idr) : Parcel :=
  off.extractLsb' 1 5 ++ reg ++ ra ++ op ++ 0b01#2 ++ d.sizeCode16

/-- An ARAcc parcel from its fields, bit 15 first; the reserved bits are written 0b00 (R94, R100). -/
def encodeArAcc (d : Decisions) (op : BitVec 4) (r0 r1 : Hgp) : Parcel :=
  r1 ++ r0 ++ 0b00#2 ++ op ++ 0b00#2 ++ d.sizeCode16

/-- An AIAcc parcel from its fields, bit 15 first (R95). -/
def encodeAiAcc (d : Decisions) (op : BitVec 3) (rd : Hgp) (imm : BitVec 6) : Parcel :=
  imm ++ rd ++ op ++ 0b10#2 ++ d.sizeCode16

/-- The parcel of an instruction (R93 to R95, R101 to R103, and the encode direction of 95_test_vectors.md section 2). -/
def encode (d : Decisions) : Instr → Parcel
  | .ld rd off ra => encodeRelIAcc d 0b00 rd off ra
  | .lo rd off ra => encodeRelIAcc d 0b01 rd off ra
  | .sd rs off ra => encodeRelIAcc d 0b10 rs off ra
  | .so rs off ra => encodeRelIAcc d 0b11 rs off ra
  | .add r0 r1 => encodeArAcc d 0b0001 r0 r1
  | .sub r0 r1 => encodeArAcc d 0b0010 r0 r1
  | .mulR r0 r1 => encodeArAcc d 0b0011 r0 r1
  | .divR r0 r1 => encodeArAcc d 0b0100 r0 r1
  | .notR r0 r1 => encodeArAcc d 0b0101 r0 r1
  | .srlR r0 r1 => encodeArAcc d 0b0110 r0 r1
  | .srrR r0 r1 => encodeArAcc d 0b0111 r0 r1
  | .xorR r0 r1 => encodeArAcc d 0b1000 r0 r1
  | .andR r0 r1 => encodeArAcc d 0b1001 r0 r1
  | .orR r0 r1 => encodeArAcc d 0b1010 r0 r1
  | .addiu rd imm => encodeAiAcc d 0b000 rd imm
  | .addi rd imm => encodeAiAcc d 0b001 rd imm
  | .mulI rd imm => encodeAiAcc d 0b010 rd imm
  | .divI rd imm => encodeAiAcc d 0b011 rd imm
  | .srlI rd imm => encodeAiAcc d 0b100 rd imm
  | .srrI rd imm => encodeAiAcc d 0b101 rd imm
  | .xorI rd imm => encodeAiAcc d 0b110 rd imm
  | .orI rd imm => encodeAiAcc d 0b111 rd imm

/-- The bytes of an instruction as they lie in memory, lowest address first (R62). -/
def encodeBytes (d : Decisions) (i : Instr) : List Byte := bytesOfParcel d.endian (encode d i)

/-- The bits of a table word of `nbits` bits, as the 16-bit parcel they fill; every bit above `nbits` is 0. -/
def tableParcel (nbits w : Nat) : Parcel := BitVec.ofNat 16 (w % 2 ^ nbits)

/-- The instruction the decoder reads from a word of spec/opcode_table.json, laid out in memory order first. -/
def decodeTableWord (nbits w : Nat) : Option Instr :=
  match decodeBytes Decisions.decided (bytesOfParcel Decisions.decided.endian (tableParcel nbits w)) with
  | .ok (i, _) => some i
  | .error _ => none

end Sys2Proof
end

