-- ==== Sys2Proof/Machine/State.lean ====
section
/-! DEFINITION. The state of one GeCo core (R20) as plain data, the reasons a step can stop, and the state after reset.
Fields marked MODEL are the model's own: the spec's step needs what they hold and names no storage for it. -/

namespace Sys2Proof.Machine

/-- "the processor flags": the one bit the source names (R32). -/
structure Flags where
  /-- "the trap bit in the processor flags" -/
  trap : Bool
deriving DecidableEq, Repr

/-- `run_state` (R46, R241). -/
inductive RunState where
  | running | stopped
deriving DecidableEq, Repr

/-- `pending[MSI]`, `pending[Timer]`, `pending[ExtDev]` (R46, R205). -/
structure Pending where
  msi : Bool
  timer : Bool
  extDev : Bool
deriving DecidableEq, Repr

/-- What the environment and the core do at one instruction boundary (R200 step 1, R205): the pending bits the
environment sets since the boundary before, and the external cause the core chooses to take, if any. -/
structure Boundary where
  raise : Pending
  take : Option ExtCause
deriving DecidableEq, Repr

/-- Memory: (address, byte) pairs with addresses strictly rising. An address that is not listed holds no value (R47,
R48). -/
abbrev Memory := List Host.Cell

/-- The state of the machine. -/
structure State where
  /-- Main registers by register id (R21, R22). Slot 0 is `r0_scratch`, the storage behind register 0 (R23 to R25). -/
  regs : Vector Word 32
  /-- The address of the instruction being executed (R30). -/
  pc : Word
  /-- The processor flags (R32). -/
  flags : Flags
  /-- The privilege mode (R34). -/
  mode : Mode
  /-- CSR 0x000000, the trap cause (R37). -/
  scause : Word
  /-- CSR 0x000001, handler address in bits 62:0 and `strap.on` in bit 63 (R38). -/
  strap : Word
  /-- CSR 0x000002, the return address of a trap (R39). -/
  sret : Word
  /-- CSR 0x000003, storage the hardware never touches (R40). -/
  sscratch : Word
  /-- CSR 0x010000, storage with no effect (R41). -/
  memmode : Word
  /-- CSR 0x010014, storage with no effect (R42). -/
  memreg : Word
  /-- The pending bits of the external causes (R46). -/
  pending : Pending
  /-- Whether the core still has steps (R46, R212). -/
  runState : RunState
  /-- Physical memory (R45, R60). -/
  mem : Memory
  /-- MODEL (log 5): the physical addresses stores of this run have written, strictly rising. Read only by the check
  of R68 step 5 (R79). -/
  stored : List Nat
  /-- MODEL (log 4): what happens at the coming instruction boundaries, nearest first; past its end nothing arrives and
  nothing is taken. A claim about every state holds for every arrival and every choice (R205, R208). -/
  env : List Boundary
  /-- MODEL (log 1): the parameters of R8. No step changes them. -/
  cfg : Config
deriving DecidableEq, Repr

/-- Why a step has no next state. All but `coreStopped` are the reasons of the closed list of R14, and each is SAFE: the
model stops where the hardware may well go on. -/
inductive Fault where
  /-- `Unspecified(UnassignedEncoding)`: raised by a step whose parcel is no instruction (R105, R144, R171, R184). Safe. -/
  | unassignedEncoding (why : DecodeReject)
  /-- `Unspecified(DivisionUndefined)`: raised by `cgc.div` on a division with no quotient, when `DIV0` is `stop`
  (R142). Safe. -/
  | divisionUndefined
  /-- `Unspecified(DeviceAccess)`: raised by an access that touches physical 0x1000 to 0x3FFF (R71, R232, R234). Safe. -/
  | deviceAccess (kind : AccessKind) (addr : Word)
  /-- `Unspecified(TrapWhileDisabled)`: raised by trap entry with `strap.on` clear. It carries the state the core is
  left in, whose `run_state` is `Stopped`; that state is never final, and its `scause` and `sret` say nothing (R210,
  R212). Safe. -/
  | trapWhileDisabled (left : State)
  /-- `Unspecified(FetchOfModifiedCode)`: raised by a fetch of a byte a store of this run has written, when
  `IFETCH_COHERENT` is `refused` (R68, R79). Safe. -/
  | fetchOfModifiedCode
  /-- `Unspecified(MultiCoreUnmodelled)`: raised by a load or fetch when `NCORES` is not 1 (R76). Safe. -/
  | multiCoreUnmodelled
  /-- `Unspecified(UninitialisedRead)`: raised by a fetch of a byte nothing has written, the model's choice of R48's two
  treatments (R48, log 2). Safe. -/
  | uninitialisedRead
  /-- Raised by a step of a core whose `run_state` is `Stopped`: "the core has no step" (R200 step 0). Exact. -/
  | coreStopped
deriving DecidableEq, Repr

/-- Why an instruction is given no meaning. -/
inductive Refusal where
  /-- An instruction of the opcode table whose meaning is not written yet: raised by `exec` alone. Safe. -/
  | notModelled (mnemonic : String)
deriving DecidableEq, Repr

/-- What abandons an access: an architectural trap, or one of the model's own stops (R12, R14). -/
inductive Abort where
  | trap (c : IntCause)
  | unspecified (f : Fault)
deriving DecidableEq, Repr

/-- No external cause pending. -/
def Pending.none : Pending := { msi := false, timer := false, extDev := false }

/-- The launch state under a configuration: `pc` is its `RESET_PC`. The source states no reset value for anything (R47,
R250), so every other value here is the model's (log 6), but `run_state`, which R47 gives as `Running`. UNSAFE: no
statement may rest on one of them that does not say so. -/
def State.launch (c : Config) : State where
  regs := Vector.replicate 32 0
  pc := c.resetPc
  flags := { trap := false }
  mode := .supervisor
  scause := 0
  strap := 0
  sret := 0
  sscratch := 0
  memmode := 0
  memreg := 0
  pending := Pending.none
  runState := .running
  mem := []
  stored := []
  env := []
  cfg := c

/-- The machine right after reset (log 6). -/
def State.reset : State := State.launch Config.atReset

end Sys2Proof.Machine
end

