-- ==== Sys2Proof/Machine/Flags.lean ====
section
/-! DEFINITION. The processor flags. There are no condition codes: no instruction writes any flag, and the only flag
computation the spec gives is trap entry setting the trap bit (R32, R33). Nothing clears it. -/

namespace Sys2Proof.Machine

/-- "the trap bit in the processor flags" (R32). -/
def State.trapBit (s : State) : Bool := s.flags.trap

/-- The flags after a trap is entered (R32, R210). -/
def flagsOnTrapEntry (f : Flags) : Flags := { f with trap := true }

end Sys2Proof.Machine
end

