-- ==== Sys2Proof/Machine/Memory.lean ====
section
/-! DEFINITION. The byte array of R60 over its list of written cells: one byte, a run of bytes, the value a run holds, and
the set of stored-to addresses of R68 step 5. Runs of bytes go upward from an address modulo 2^64 (R60, log 20). -/

namespace Sys2Proof.Machine

/-- The canonical form: addresses strictly rising, each a 64-bit physical address. An unlisted address holds no value, so
no entry can equal what it reads as. -/
abbrev Memory.wf (m : Memory) : Prop := m.Pairwise (fun x y => x.1 < y.1) ∧ ∀ c ∈ m, c.1 < 2 ^ 64

/-- What an address holds: `none` where nothing has been written (R47, R48). -/
def Memory.read? : Memory → Nat → Option Byte
  | [], _ => none
  | (k, b) :: m, a => if k = a then some b else Memory.read? m a

/-- The byte a load finds at a physical address: a byte nothing has written is "an unconstrained unknown" (R48, log 2). -/
def Memory.byteAt (m : Memory) (a : Word) : Byte := (m.read? a.toNat).getD (Config.unwrittenByte a)

/-- Write one byte, keeping the canonical form. -/
def Memory.write : Memory → Nat → Byte → Memory
  | [], a, v => [(a, v)]
  | (k, b) :: m, a, v =>
    if a < k then (a, v) :: (k, b) :: m
    else if a = k then (a, v) :: m
    else (k, b) :: Memory.write m a v

/-- The `n` bytes a load finds from `a` upward. -/
def Memory.readBytes (m : Memory) (a : Word) : Nat → List Byte
  | 0 => []
  | n + 1 => m.byteAt a :: Memory.readBytes m (a + 1) n

/-- Write a run of bytes from `a` upward. -/
def Memory.writeBytes (m : Memory) (a : Word) : List Byte → Memory
  | [] => m
  | b :: bs => Memory.writeBytes (m.write a.toNat b) (a + 1) bs

/-- The value of bytes given least significant first: the sum over i of byte i times 2^(8i) (R61). -/
def wordOfBytesLE : List Byte → Word
  | [] => 0
  | b :: bs => b.zeroExtend 64 ||| (wordOfBytesLE bs <<< 8)

/-- The low `n` bytes of a value, least significant first: byte i is bits 8i+7 : 8i (R61). -/
def bytesOfWordLE : Nat → Word → List Byte
  | 0, _ => []
  | n + 1, v => v.extractLsb' 0 8 :: bytesOfWordLE n (v >>> 8)

/-- The value of the bytes of an access, lowest address first (R61, D3). -/
def wordOfBytes (e : Endian) (bs : List Byte) : Word :=
  match e with
  | .little => wordOfBytesLE bs
  | .big => wordOfBytesLE bs.reverse

/-- The bytes of an `n`-byte access, lowest address first (R61, D3). -/
def bytesOfWord (e : Endian) (n : Nat) (v : Word) : List Byte :=
  match e with
  | .little => bytesOfWordLE n v
  | .big => (bytesOfWordLE n v).reverse

/-- Add an address to a strictly rising list of addresses. -/
def insertAddr : List Nat → Nat → List Nat
  | [], a => [a]
  | k :: ks, a => if a < k then a :: k :: ks else if a = k then k :: ks else k :: insertAddr ks a

/-- Record the `n` bytes from `a` upward as stored to (R79). -/
def markStored (ks : List Nat) (a : Word) : Nat → List Nat
  | 0 => ks
  | n + 1 => markStored (insertAddr ks a.toNat) (a + 1) n

/-- Whether a byte of the `n` from `a` upward was stored to in this run (R68 step 5). -/
def anyStored (ks : List Nat) (a : Word) : Nat → Bool
  | 0 => false
  | n + 1 => ks.contains a.toNat || anyStored ks (a + 1) n

end Sys2Proof.Machine
end

