-- ==== Sys2Proof/Machine/Ops.lean ====
section
/-! DEFINITION. The shared operations: main registers (R23, R24), control and status registers (R35), the access
primitives `MemRead`, `MemWrite` and `Fetch` (R66 to R68) over the platform's `ValidPhys` (R74) and the Core
Communication Device's two regions (R71), taking a trap (R210), and the interrupt boundary of a step (R200 step 1, R205).
There is no return from a trap: no instruction reads `sret`, clears the trap bit or lowers the mode (R215). -/

namespace Sys2Proof.Machine

/-! ## Main registers -/

/-- `r0_scratch`, the storage behind register 0 (R23 to R25). -/
def State.r0Scratch (s : State) : Word := s.regs[0]

/-- What register id `r` holds, whatever the trap bit is. -/
def State.regStorage (s : State) (r : RegId) : Word := s.regs[r.toNat]'r.isLt

/-- `x[r]`: register 0 reads zero unless the trap bit is set (R23). A register nothing has written reads its reset value
(log 17). -/
def State.readReg (s : State) (r : RegId) : Word :=
  if r = 0#5 ∧ s.trapBit = false then 0#64 else s.regStorage r

/-- `x[r] <- v`: with the trap bit clear a write of register 0 is discarded (R24). -/
def State.writeReg (s : State) (r : RegId) (v : Word) : State :=
  if r = 0#5 ∧ s.trapBit = false then s else { s with regs := s.regs.set r.toNat v r.isLt }

/-- `pc <- pc + 2`, modulo 2^64: every instruction is 2 bytes long (R30, R31). -/
def State.advance (s : State) : State := { s with pc := s.pc + 2 }

/-! ## Control and status registers -/

/-- The six CSRs of the listing (R35). -/
inductive Csr where
  | scause | strap | sret | sscratch | memmode | memreg
deriving DecidableEq, Repr

/-- The terms of the listing's column "Access": read any and write any, write ignored, write legal (R13). -/
inductive CsrAccess where
  | aa | ai | al
deriving DecidableEq, Repr

/-- The listing's column "Address" (R35, R36). -/
def Csr.address : Csr → CsrAddr
  | .scause => 0x000000
  | .strap => 0x000001
  | .sret => 0x000002
  | .sscratch => 0x000003
  | .memmode => 0x010000
  | .memreg => 0x010014

/-- The register an address names, if it names one (R36). -/
def Csr.ofAddress? (a : CsrAddr) : Option Csr :=
  if a = 0x000000 then some .scause
  else if a = 0x000001 then some .strap
  else if a = 0x000002 then some .sret
  else if a = 0x000003 then some .sscratch
  else if a = 0x010000 then some .memmode
  else if a = 0x010014 then some .memreg
  else none

/-- The register a number names, among the addresses of the configured width (R36, D39). -/
def csrAt? (d : Decisions) (a : Nat) : Option Csr :=
  if a < 2 ^ d.csrAddrBits ∧ a < 2 ^ 24 then Csr.ofAddress? (BitVec.ofNat 24 a) else none

/-- The listing's column "Access": every entry is AA (R35). -/
def Csr.access (_ : Csr) : CsrAccess := .aa

/-- The listing's column "Minimum Mode": every entry is Supervisor. Nothing checks it, since no instruction accesses a
CSR (R35, R43, R220). -/
def Csr.minimumMode (_ : Csr) : Mode := .supervisor

/-- Whether a mode stands at or above another in an ascending list of modes (R34, R220). -/
def modeAtLeast (modes : List Mode) (m least : Mode) : Bool := (modes.dropWhile fun x => x != least).contains m

/-- Whether a mode may access a CSR, if an access instruction existed (R220, D24, log 18). -/
def mayAccessCsr (d : Decisions) (m : Mode) (c : Csr) : Bool := modeAtLeast d.modes m c.minimumMode

/-- The value a CSR holds (R13, R35). -/
def State.readCsr (s : State) : Csr → Word
  | .scause => s.scause
  | .strap => s.strap
  | .sret => s.sret
  | .sscratch => s.sscratch
  | .memmode => s.memmode
  | .memreg => s.memreg

/-- Keep any 64-bit value in a CSR, as access AA says (R13, R35). Trap entry writes `scause` and `sret` through it (R43). -/
def State.writeCsr (s : State) (c : Csr) (v : Word) : State :=
  match c with
  | .scause => { s with scause := v }
  | .strap => { s with strap := v }
  | .sret => { s with sret := v }
  | .sscratch => { s with sscratch := v }
  | .memmode => { s with memmode := v }
  | .memreg => { s with memreg := v }

/-! ## The physical address space -/

/-- The Core Local Buffer region: 0x1000 bytes at 0x1000 (R71, R230). -/
def inClb (a : Nat) : Bool := 0x1000 ≤ a && a < 0x2000

/-- The Core Control region: 0x2000 bytes at 0x2000 (R71, R230). -/
def inCcr (a : Nat) : Bool := 0x2000 ≤ a && a < 0x4000

/-- The two regions of the Core Communication Device, 0x1000 to 0x3FFF (R71). -/
def inCcd (a : Nat) : Bool := inClb a || inCcr a

/-- Physical address of "Core n Control", one of 4096 registers of 2 bytes (R231, D34). Nothing reads it: every access to
the region stops (R232, logs 11 and 19). -/
def coreControlAddress (d : Decisions) (n : BitVec 12) : Nat := 0x2000 + d.ccrStride * n.toNat

/-- Whether a region of the platform answers an access of a kind (R74). -/
def regionAllows (r : Region) (k : AccessKind) : Bool :=
  match k with
  | .read => r.read
  | .write => r.write
  | .execute => r.execute

/-- Whether one physical byte exists for a kind of access. The CCD regions exist on every platform (R74).
DEDUCED (log 9): n bytes exist when each of them does. -/
def validByte (c : Config) (a : Nat) (k : AccessKind) : Bool :=
  inCcd a || (a < 2 ^ c.paBits && c.platform.any fun r => r.base ≤ a && a < r.base + r.size && regionAllows r k)

/-- `ValidPhys(pa, n, kind)`: the n bytes at `pa` exist for the kind of access (R74). -/
def validPhys (c : Config) (pa : Word) (n : Nat) (k : AccessKind) : Bool :=
  match n with
  | 0 => true
  | n + 1 => validByte c pa.toNat k && validPhys c (pa + 1) n k

/-- Whether the n bytes at `pa` meet 0x1000 to 0x3FFF (R66 to R68 step 4, R71). -/
def touchesCcd (pa : Word) (n : Nat) : Bool :=
  match n with
  | 0 => false
  | n + 1 => inCcd pa.toNat || touchesCcd (pa + 1) n

/-- `Translate(addr, kind)`: translation is off, so an address is its own physical address, and no page fault is ever
raised (R72, R73). -/
def translate (t : Translation) (va : Word) (_ : AccessKind) : Word :=
  match t with
  | .off => va

/-- What an access to the Core Communication Device does: no value it could read or write has a meaning (R71, R232, R234,
log 11). -/
def ccdAccess (v : CcdValues) (k : AccessKind) (addr : Word) : Abort :=
  match v with
  | .refused => .unspecified (.deviceAccess k addr)

/-! ## The access primitives -/

/-- The multiple an address must be of: for a fetch, and for a data access by its width (R64, R65). -/
def requiredAlignment (g : Alignment) (n : Nat) (k : AccessKind) : Nat :=
  match k with
  | .execute => g.fetch
  | _ => if n = 2 then g.half else g.octa

/-- Whether an access is misaligned (R64, R65). -/
def misaligned (g : Alignment) (addr : Word) (n : Nat) (k : AccessKind) : Bool :=
  addr.toNat % requiredAlignment g n k != 0

/-- "Misaligned instruction", "Misaligned read", "Misaligned write" (R201, R202). -/
def misalignedCause : AccessKind → IntCause
  | .execute => .misalignedInstr
  | .read => .misalignedRead
  | .write => .misalignedWrite

/-- "Invalid instruction address", "Invalid read address", "Invalid write address" (R201, R202). -/
def invalidCause : AccessKind → IntCause
  | .execute => .invalidInstr
  | .read => .invalidRead
  | .write => .invalidWrite

/-- The one internal cause an access reports, in the order of R207: misaligned before invalid under D30. -/
def accessTrap (c : Config) (addr : Word) (n : Nat) (k : AccessKind) : Option IntCause :=
  let mis := misaligned c.dec.align addr n k
  let bad := !validPhys c (translate c.dec.translation addr k) n k
  match c.dec.excPriority with
  | .misalignedFirst =>
    if mis then some (misalignedCause k) else if bad then some (invalidCause k) else none
  | .invalidFirst =>
    if bad then some (invalidCause k) else if mis then some (misalignedCause k) else none

/-- What keeps an access from being performed: steps 1 to 4 of R66 to R68, and a load or fetch of memory another core
may write (R76, log 13). -/
def accessAbort (c : Config) (addr : Word) (n : Nat) (k : AccessKind) : Option Abort :=
  match accessTrap c addr n k with
  | some t => some (.trap t)
  | none =>
    if touchesCcd (translate c.dec.translation addr k) n then some (ccdAccess c.ccdValues k addr)
    else if k ≠ .write ∧ c.nCores ≠ 1 then some (.unspecified .multiCoreUnmodelled)
    else none

/-- `MemRead(addr, n)`: the value of the n bytes at `addr`, zero-extended to 64 bits (R66). -/
def memRead (s : State) (addr : Word) (n : Nat) : Except Abort Word :=
  match accessAbort s.cfg addr n .read with
  | some a => .error a
  | none => .ok (wordOfBytes s.cfg.dec.endian (s.mem.readBytes (translate s.cfg.dec.translation addr .read) n))

/-- The state after the n low bytes of `v` are stored at a physical address (R67 step 5, R79). -/
def State.store (s : State) (pa : Word) (n : Nat) (v : Word) : State :=
  { s with
    mem := s.mem.writeBytes pa (bytesOfWord s.cfg.dec.endian n v)
    stored := markStored s.stored pa n }

/-- `MemWrite(addr, n, v)`: when a trap is raised no byte is written (R67). -/
def memWrite (s : State) (addr : Word) (n : Nat) (v : Word) : Except Abort State :=
  match accessAbort s.cfg addr n .write with
  | some a => .error a
  | none => .ok (s.store (translate s.cfg.dec.translation addr .write) n v)

/-- Whether a fetch at a physical address meets bytes this run has stored to and gives that no meaning (R68 step 5, R79). -/
def fetchRefused (s : State) (pa : Word) : Bool :=
  match s.cfg.dec.ifetch with
  | .refused => anyStored s.stored pa 2
  | .coherent => false

/-- The parcel at a physical address; a byte nothing has written has no value, and no instruction is read from it
(R48, log 2, R62). -/
def parcelAt (s : State) (pa : Word) : Except Abort Parcel :=
  match s.mem.read? pa.toNat, s.mem.read? (pa + 1).toNat with
  | some b0, some b1 => .ok (parcelOfBytes s.cfg.dec.endian b0 b1)
  | _, _ => .error (.unspecified .uninitialisedRead)

/-- `Fetch(addr)` (R68). -/
def fetch (s : State) (addr : Word) : Except Abort Parcel :=
  match accessAbort s.cfg addr 2 .execute with
  | some a => .error a
  | none =>
    if fetchRefused s (translate s.cfg.dec.translation addr .execute) then .error (.unspecified .fetchOfModifiedCode)
    else parcelAt s (translate s.cfg.dec.translation addr .execute)

/-! ## Taking a trap -/

/-- The cause table's column "Number" for the external causes (R201). -/
def extCauseNumber : ExtCause → Word
  | .msi => 0x00
  | .timer => 0x02
  | .extDev => 0x04

/-- The cause table's column "Number" for the internal causes (R201). -/
def intCauseNumber : IntCause → Word
  | .misalignedInstr => 0x00
  | .misalignedRead => 0x02
  | .misalignedWrite => 0x04
  | .invalidInstr => 0x06
  | .invalidRead => 0x08
  | .invalidWrite => 0x0A
  | .instrPageFault => 0x0C
  | .readPageFault => 0x0E
  | .writePageFault => 0x10

/-- "Number" of a cause (R201). -/
def causeNumber : Cause → Word
  | .external c => extCauseNumber c
  | .internal c => intCauseNumber c

/-- "Source" of a cause: "External (1)" or "Internal (0)" (R201). -/
def causeSource : Cause → Word
  | .external _ => 1
  | .internal _ => 0

/-- The row of a cause in the cause table, counted from 0 (R201). -/
def causeRow : Cause → Fin 12
  | .external .msi => 0
  | .external .timer => 1
  | .external .extDev => 2
  | .internal .misalignedInstr => 3
  | .internal .misalignedRead => 4
  | .internal .misalignedWrite => 5
  | .internal .invalidInstr => 6
  | .internal .invalidRead => 7
  | .internal .invalidWrite => 8
  | .internal .instrPageFault => 9
  | .internal .readPageFault => 10
  | .internal .writePageFault => 11

/-- `SCAUSE_ENCODE(source, number)` (R211). -/
def scauseEncode (d : Decisions) (c : Cause) : Word := d.scauseTable.values[causeRow c]

/-- The value `sret` receives, from the `pc` at the moment of the trap (R214). -/
def sretOf (d : Decisions) (c : Cause) (epc : Word) : Word :=
  match c, d.sretValue with
  | .internal _, .followingPc => epc + 2
  | _, _ => epc

/-- `strap.on` (R38). -/
def State.strapOn (s : State) : Bool := s.strap.getLsbD 63

/-- The handler address: `strap[62:0]` below a bit 63 that is stored nowhere (R213). -/
def handlerAddress (d : Decisions) (strap : Word) : Word :=
  match d.strapBit63 with
  | .zero => 0b0#1 ++ strap.extractLsb' 0 63
  | .copyOfBit62 => strap.extractLsb' 62 1 ++ strap.extractLsb' 0 63

/-- The state a trap enters with trapping on. Nothing that is not named here changes (R210). -/
def State.enterTrap (s : State) (c : Cause) (epc : Word) : State :=
  { (s.writeCsr .scause (scauseEncode s.cfg.dec c)).writeCsr .sret (sretOf s.cfg.dec c epc) with
    flags := flagsOnTrapEntry s.flags
    mode := .supervisor
    pc := handlerAddress s.cfg.dec s.strap }

/-- The state a trap leaves the core in with trapping off: it has no further step (R210, R212). DEDUCED (log
10): no other field changes. -/
def State.stop (s : State) : State := { s with runState := .stopped }

/-- The outcome of a trap with `strap.on` clear (R212). -/
def trapDisabled (p : NoStrap) (s : State) : Host.Outcome State Fault Refusal :=
  match p with
  | .modelFault => .fault (.trapWhileDisabled s.stop)

/-- `TrapEntry(source, number, epc)`: the whole effect of taking a trap, of any cause and in any mode (R210, R217, R218). -/
def trapEntry (c : Cause) (epc : Word) (s : State) : Host.Outcome State Fault Refusal :=
  if s.strapOn then .next (s.enterTrap c epc) else trapDisabled s.cfg.dec.noStrap s

/-- What an abandoned access does to the step: a trap is entered with the `pc` of the instruction, and a stop is a stop
(R12, R14, R200). -/
def abandon (a : Abort) (s : State) : Host.Outcome State Fault Refusal :=
  match a with
  | .trap c => trapEntry (.internal c) s.pc s
  | .unspecified f => .fault f

/-! ## The interrupt boundary -/

/-- Set pending bits (R205). -/
def Pending.union (p q : Pending) : Pending :=
  { msi := p.msi || q.msi, timer := p.timer || q.timer, extDev := p.extDev || q.extDev }

/-- `pending[c]` (R46). -/
def Pending.get (p : Pending) : ExtCause → Bool
  | .msi => p.msi
  | .timer => p.timer
  | .extDev => p.extDev

/-- `pending[c] <- 0` (R200 step 1). -/
def Pending.clear (p : Pending) : ExtCause → Pending
  | .msi => { p with msi := false }
  | .timer => { p with timer := false }
  | .extDev => { p with extDev := false }

/-- The state at an instruction boundary, after what the environment raises there (R205). -/
def State.atBoundary (s : State) : State :=
  match s.env with
  | [] => s
  | b :: rest => { s with pending := s.pending.union b.raise, env := rest }

/-- The external cause taken at the coming boundary: the core may choose any whose pending bit is set, or none (R200
step 1, R205, R208). There is no mask (R206). -/
def State.interruptTaken (s : State) : Option ExtCause :=
  match s.env with
  | [] => none
  | b :: _ =>
    match b.take with
    | none => none
    | some c => if (s.pending.union b.raise).get c then some c else none

/-- Taking an external cause: its pending bit is cleared, and the instruction at `pc` is not started (R200 step 1, R208). -/
def takeInterrupt (c : ExtCause) (s : State) : Host.Outcome State Fault Refusal :=
  trapEntry (.external c) s.pc { s with pending := s.pending.clear c }

/-- Put the bytes of a parcel at the `pc`, as a program placed there before the run and not as a store of the run (R263,
log 7). -/
def State.placeParcel (s : State) (w : Parcel) : State :=
  { s with
    mem := s.mem.writeBytes s.pc (bytesOfParcel s.cfg.dec.endian w)
    stored := s.stored.filter fun a => a != s.pc.toNat && a != (s.pc + 1).toNat }

end Sys2Proof.Machine
end

