-- ==== Sys2Proof/Machine/Operands.lean ====
section
/-! DEFINITION. Every operand form of the three formats: HGP and Address IDR register fields (R99), the RelIAcc offset and
effective address (R97, R120), and the AIAcc immediates (R98, R150). -/

namespace Sys2Proof.Machine

/-- The register id an HGP field names: 8 + field under D7 (R99). -/
def hgpId (d : Decisions) (k : Hgp) : RegId := d.hgpMap[k.toNat]'k.isLt

/-- The register id an Address IDR field names: 4 + field under D6 (R99). -/
def idrId (d : Decisions) (k : Idr) : RegId := d.idrMap[k.toNat]'k.isLt

/-- The value of the register an HGP field names. -/
def State.hgp (s : State) (k : Hgp) : Word := s.readReg (hgpId s.cfg.dec k)

/-- Write the register an HGP field names. -/
def State.setHgp (s : State) (k : Hgp) (v : Word) : State := s.writeReg (hgpId s.cfg.dec k) v

/-- The value of the base register an Address IDR field names. -/
def State.idr (s : State) (k : Idr) : Word := s.readReg (idrId s.cfg.dec k)

/-- The RelIAcc byte offset as 64 bits: zero-extended under D8, so 0, 2, ..., 62 (R97). -/
def offsetValue (d : Decisions) (off : BitVec 6) : Word :=
  match d.offsetExt with
  | .zero => off.zeroExtend 64
  | .sign => off.signExtend 64

/-- `ea = (x[base] + offset) mod 2^64`, the only addressing mode (R120). -/
def State.effectiveAddress (s : State) (off : BitVec 6) (ra : Idr) : Word := s.idr ra + offsetValue s.cfg.dec off

/-- `immu = zext_6(imm6)`, 0 to 63 (R98, R150). -/
def immUnsigned (imm : BitVec 6) : Word := imm.zeroExtend 64

/-- `imms = sext_6(imm6)`, -32 to 31 (R98, R150). -/
def immSigned (imm : BitVec 6) : Word := imm.signExtend 64

end Sys2Proof.Machine
end

