-- ==== Sys2Proof/Machine/Arith.lean ====
section
/-! DEFINITION. The arithmetic both arithmetic formats share, on 64-bit values: division (R142), shifts (R143), inversion
(R135), and the extension of a loaded halfword (R121). Addition, subtraction, multiplication and the logical operations
are those of `BitVec 64`, which keep the low 64 bits of the exact result (R141). -/

namespace Sys2Proof.Machine

/-- The most negative value, -2^63 (R142). -/
def mostNegative : Word := 0x8000000000000000

/-- Whether a division has no quotient: a zero divisor, and in the signed readings -2^63 divided by -1 (R142). -/
def divisionCorner (m : DivMode) (n d : Word) : Bool :=
  match m with
  | .unsigned => d == 0#64
  | _ => d == 0#64 || (n == mostNegative && d == -1#64)

/-- The quotient outside the corners, under each reading R142 lists: computed exactly, then as 64 bits. -/
def quotient (m : DivMode) (n d : Word) : Word :=
  match m with
  | .signedTowardZero => BitVec.ofInt 64 (n.toInt.tdiv d.toInt)
  | .signedTowardMinusInf => BitVec.ofInt 64 (n.toInt.fdiv d.toInt)
  | .unsigned => BitVec.ofNat 64 (n.toNat / d.toNat)

/-- `Div(n, d)`: `none` is `Unspecified(DivisionUndefined)` (R142). -/
def divide (p : Decisions) (n d : Word) : Option Word :=
  if divisionCorner p.divMode n d then
    match p.div0 with
    | .stop => none
    | .freeValue => some (Config.divCornerValue n d)
  else some (quotient p.divMode n d)

/-- The shift amount of a register form: the low 6 bits of the r0 operand under D17 (R143). An amount of 64 or more, read
whole, shifts everything out, as 64 does. -/
def shiftAmount (p : Decisions) (a : Word) : Nat :=
  match p.shamtMode with
  | .mod64 => a.toNat % 64
  | .whole => min a.toNat 64

/-- A shift LEFT by k: `(v * 2^k) mod 2^64` (R18, R143). -/
def shiftLeft (v : Word) (k : Nat) : Word := v <<< k

/-- A shift RIGHT by k: zeros enter at bit 63 under D16 (R143). -/
def shiftRight (p : Decisions) (v : Word) (k : Nat) : Word :=
  match p.srrFill with
  | .zeros => v >>> k
  | .signBit => v.sshiftRight k

/-- The destination of `cgc.ld` from the loaded halfword, zero-extended in `v`, and the register's old value (R121). -/
def extendHalfword (p : Decisions) (old v : Word) : Word :=
  match p.ldExt with
  | .zero => (v.extractLsb' 0 16).zeroExtend 64
  | .sign => (v.extractLsb' 0 16).signExtend 64
  | .keep => old.extractLsb' 16 48 ++ v.extractLsb' 0 16

end Sys2Proof.Machine
end

