-- ==== Sys2Proof/Machine/AIAcc.lean ====
section
/-! DEFINITION. The AIAcc family: register-immediate arithmetic (R150 to R158). `rd` is source and destination. No memory
access, no trap, no flag. -/

namespace Sys2Proof.Machine

/-- The common shape of the family: `x[D] <- v`, then `pc <- pc + 2` (R150). -/
def State.aiaccResult (s : State) (rd : Hgp) (v : Word) : State := (s.setHgp rd v).advance

/-- `cgc.addiu rd, imm`: the immediate zero-extended (R151). -/
def execAddiu (rd : Hgp) (imm : BitVec 6) (s : State) : Host.Outcome State Fault Refusal :=
  .next (s.aiaccResult rd (s.hgp rd + immUnsigned imm))

/-- `cgc.addi rd, imm`: the immediate sign-extended (R152). -/
def execAddi (rd : Hgp) (imm : BitVec 6) (s : State) : Host.Outcome State Fault Refusal :=
  .next (s.aiaccResult rd (s.hgp rd + immSigned imm))

/-- `cgc.mul rd, imm`: the low 64 bits of the product (R153). -/
def execMulI (rd : Hgp) (imm : BitVec 6) (s : State) : Host.Outcome State Fault Refusal :=
  .next (s.aiaccResult rd (s.hgp rd * immSigned imm))

/-- `cgc.div rd, imm`: dividend rd, divisor the sign-extended immediate (R154, R142). -/
def execDivI (rd : Hgp) (imm : BitVec 6) (s : State) : Host.Outcome State Fault Refusal :=
  match divide s.cfg.dec (s.hgp rd) (immSigned imm) with
  | some q => .next (s.aiaccResult rd q)
  | none => .fault .divisionUndefined

/-- `cgc.srl rd, imm`: rd shifted LEFT by 0 to 63 (R155). -/
def execSrlI (rd : Hgp) (imm : BitVec 6) (s : State) : Host.Outcome State Fault Refusal :=
  .next (s.aiaccResult rd (shiftLeft (s.hgp rd) imm.toNat))

/-- `cgc.srr rd, imm`: rd shifted RIGHT by 0 to 63 (R156). -/
def execSrrI (rd : Hgp) (imm : BitVec 6) (s : State) : Host.Outcome State Fault Refusal :=
  .next (s.aiaccResult rd (shiftRight s.cfg.dec (s.hgp rd) imm.toNat))

/-- `cgc.xor rd, imm`: the immediate sign-extended (R157). -/
def execXorI (rd : Hgp) (imm : BitVec 6) (s : State) : Host.Outcome State Fault Refusal :=
  .next (s.aiaccResult rd (s.hgp rd ^^^ immSigned imm))

/-- `cgc.or rd, imm`: the immediate sign-extended (R158). -/
def execOrI (rd : Hgp) (imm : BitVec 6) (s : State) : Host.Outcome State Fault Refusal :=
  .next (s.aiaccResult rd (s.hgp rd ||| immSigned imm))

end Sys2Proof.Machine
end

