-- ==== Sys2Proof/Machine/ARAcc.lean ====
section
/-! DEFINITION. The ARAcc family: register-register arithmetic (R130 to R140). `r0` is a source only, `r1` the second source
and the destination; both are read before anything is written, and they may be the same register. No memory access, no
trap, no flag. -/

namespace Sys2Proof.Machine

/-- The common shape of the family: `x[B] <- v`, then `pc <- pc + 2` (R130). -/
def State.araccResult (s : State) (r1 : Hgp) (v : Word) : State := (s.setHgp r1 v).advance

/-- `cgc.add r0, r1` (R131). -/
def execAdd (r0 r1 : Hgp) (s : State) : Host.Outcome State Fault Refusal :=
  .next (s.araccResult r1 (s.hgp r1 + s.hgp r0))

/-- `cgc.sub r0, r1`: r1 minus r0 (R132). -/
def execSub (r0 r1 : Hgp) (s : State) : Host.Outcome State Fault Refusal :=
  .next (s.araccResult r1 (s.hgp r1 - s.hgp r0))

/-- `cgc.mul r0, r1`: the low 64 bits of the product (R133). -/
def execMulR (r0 r1 : Hgp) (s : State) : Host.Outcome State Fault Refusal :=
  .next (s.araccResult r1 (s.hgp r1 * s.hgp r0))

/-- `cgc.div r0, r1`: dividend r1, divisor r0 (R134, R142). -/
def execDivR (r0 r1 : Hgp) (s : State) : Host.Outcome State Fault Refusal :=
  match divide s.cfg.dec (s.hgp r1) (s.hgp r0) with
  | some q => .next (s.araccResult r1 q)
  | none => .fault .divisionUndefined

/-- `cgc.not r0, r1`, under each reading R135 lists: r1 the complement of r0 (D15), both inverted in place, or r1 the
complement of the conjunction. -/
def execNotR (r0 r1 : Hgp) (s : State) : Host.Outcome State Fault Refusal :=
  match s.cfg.dec.notReading with
  | .complementOfR0 => .next (s.araccResult r1 (~~~ s.hgp r0))
  | .bothInPlace => .next ((s.setHgp r0 (~~~ s.hgp r0)).araccResult r1 (~~~ s.hgp r1))
  | .complementOfAnd => .next (s.araccResult r1 (~~~ (s.hgp r0 &&& s.hgp r1)))

/-- `cgc.srl r0, r1`: r1 shifted LEFT (R136). -/
def execSrlR (r0 r1 : Hgp) (s : State) : Host.Outcome State Fault Refusal :=
  .next (s.araccResult r1 (shiftLeft (s.hgp r1) (shiftAmount s.cfg.dec (s.hgp r0))))

/-- `cgc.srr r0, r1`: r1 shifted RIGHT (R137). -/
def execSrrR (r0 r1 : Hgp) (s : State) : Host.Outcome State Fault Refusal :=
  .next (s.araccResult r1 (shiftRight s.cfg.dec (s.hgp r1) (shiftAmount s.cfg.dec (s.hgp r0))))

/-- `cgc.xor r0, r1` (R138). -/
def execXorR (r0 r1 : Hgp) (s : State) : Host.Outcome State Fault Refusal :=
  .next (s.araccResult r1 (s.hgp r1 ^^^ s.hgp r0))

/-- `cgc.and r0, r1` (R139). -/
def execAndR (r0 r1 : Hgp) (s : State) : Host.Outcome State Fault Refusal :=
  .next (s.araccResult r1 (s.hgp r1 &&& s.hgp r0))

/-- `cgc.or r0, r1` (R140). -/
def execOrR (r0 r1 : Hgp) (s : State) : Host.Outcome State Fault Refusal :=
  .next (s.araccResult r1 (s.hgp r1 ||| s.hgp r0))

end Sys2Proof.Machine
end

