-- ==== Sys2Proof/Machine/RelIAcc.lean ====
section
/-! DEFINITION. The RelIAcc family: loads and stores relative to the frame, stack, global or thread pointer (R120 to R125).
The base register is read and never written, and no flag is written. -/

namespace Sys2Proof.Machine

/-- `cgc.ld rd, off(ra)`: 2 bytes into rd (R121). -/
def execLd (rd : Hgp) (off : BitVec 6) (ra : Idr) (s : State) : Host.Outcome State Fault Refusal :=
  match memRead s (s.effectiveAddress off ra) 2 with
  | .ok v => .next (s.setHgp rd (extendHalfword s.cfg.dec (s.hgp rd) v)).advance
  | .error a => abandon a s

/-- `cgc.lo rd, off(ra)`: 8 bytes into rd (R122). -/
def execLo (rd : Hgp) (off : BitVec 6) (ra : Idr) (s : State) : Host.Outcome State Fault Refusal :=
  match memRead s (s.effectiveAddress off ra) 8 with
  | .ok v => .next (s.setHgp rd v).advance
  | .error a => abandon a s

/-- `cgc.sd rs, off(ra)`: the low 2 bytes of rs to memory (R123). -/
def execSd (rs : Hgp) (off : BitVec 6) (ra : Idr) (s : State) : Host.Outcome State Fault Refusal :=
  match memWrite s (s.effectiveAddress off ra) 2 (s.hgp rs) with
  | .ok t => .next t.advance
  | .error a => abandon a s

/-- `cgc.so rs, off(ra)`: the 8 bytes of rs to memory (R124). -/
def execSo (rs : Hgp) (off : BitVec 6) (ra : Idr) (s : State) : Host.Outcome State Fault Refusal :=
  match memWrite s (s.effectiveAddress off ra) 8 (s.hgp rs) with
  | .ok t => .next t.advance
  | .error a => abandon a s

end Sys2Proof.Machine
end

