-- ==== Sys2Proof/Machine/Dispatch.lean ====
section
/-! DEFINITION. One arm per instruction of the opcode map (R104), in the order of spec/opcode_table.json. -/

namespace Sys2Proof.Machine

/-- Step 4 of R200: execute the instruction. -/
def exec (i : Instr) (s : State) : Host.Outcome State Fault Refusal :=
  match i with
  | .ld rd off ra => Sys2Proof.Machine.execLd rd off ra s
  | .lo rd off ra => Sys2Proof.Machine.execLo rd off ra s
  | .sd rs off ra => Sys2Proof.Machine.execSd rs off ra s
  | .so rs off ra => Sys2Proof.Machine.execSo rs off ra s
  | .add r0 r1 => Sys2Proof.Machine.execAdd r0 r1 s
  | .sub r0 r1 => Sys2Proof.Machine.execSub r0 r1 s
  | .mulR r0 r1 => Sys2Proof.Machine.execMulR r0 r1 s
  | .divR r0 r1 => Sys2Proof.Machine.execDivR r0 r1 s
  | .notR r0 r1 => Sys2Proof.Machine.execNotR r0 r1 s
  | .srlR r0 r1 => Sys2Proof.Machine.execSrlR r0 r1 s
  | .srrR r0 r1 => Sys2Proof.Machine.execSrrR r0 r1 s
  | .xorR r0 r1 => Sys2Proof.Machine.execXorR r0 r1 s
  | .andR r0 r1 => Sys2Proof.Machine.execAndR r0 r1 s
  | .orR r0 r1 => Sys2Proof.Machine.execOrR r0 r1 s
  | .addiu rd imm => Sys2Proof.Machine.execAddiu rd imm s
  | .addi rd imm => Sys2Proof.Machine.execAddi rd imm s
  | .mulI rd imm => Sys2Proof.Machine.execMulI rd imm s
  | .divI rd imm => Sys2Proof.Machine.execDivI rd imm s
  | .srlI rd imm => Sys2Proof.Machine.execSrlI rd imm s
  | .srrI rd imm => Sys2Proof.Machine.execSrrI rd imm s
  | .xorI rd imm => Sys2Proof.Machine.execXorI rd imm s
  | .orI rd imm => Sys2Proof.Machine.execOrI rd imm s

end Sys2Proof.Machine
end

