-- ==== Sys2Proof/Machine/Cycle.lean ====
section
/-! DEFINITION. The order of one step of a core (R200), over the shared operations and `exec`. Instructions run one at a
time, in program order (R75, R81, log 21). -/

namespace Sys2Proof.Machine

/-- The outcome of a parcel that is no instruction (R105). -/
def unassignedOutcome (u : Unassigned) (why : DecodeReject) : Host.Outcome State Fault Refusal :=
  match u with
  | .modelFault => .fault (.unassignedEncoding why)

/-- Steps 3 and 4 of R200: decode the fetched parcel and execute it. -/
def executeParcel (w : Parcel) (s : State) : Host.Outcome State Fault Refusal :=
  match decode s.cfg.dec w with
  | .ok i => exec i s
  | .error r => unassignedOutcome s.cfg.dec.unassigned r

/-- Steps 2 to 4 of R200: fetch at the `pc`, decode, execute. -/
def runInstruction (s : State) : Host.Outcome State Fault Refusal :=
  match fetch s s.pc with
  | .ok w => executeParcel w s
  | .error a => abandon a s

/-- One step of a core (R200): none if stopped; at the boundary an external cause, if one is taken; else one whole
instruction. -/
def cycle (s : State) : Host.Outcome State Fault Refusal :=
  match s.runState with
  | .stopped => .fault .coreStopped
  | .running =>
    match s.interruptTaken with
    | some c => takeInterrupt c s.atBoundary
    | none => runInstruction s.atBoundary

end Sys2Proof.Machine
end

