-- ==== Sys2Proof/Machine/Step.lean ====
section
/-! DEFINITION. The step function, and where it fetches its next instruction. -/

namespace Sys2Proof.Machine

/-- One step of the machine (R200). -/
def step (s : State) : Host.Outcome State Fault Refusal := cycle s

/-- The state with a table word of `nbits` bits placed at the `pc`, where the next fetch reads it (R62, R68). -/
def State.withFetchWord (s : State) (nbits w : Nat) : State := s.placeParcel (tableParcel nbits w)

end Sys2Proof.Machine
end

