-- ==== Sys2Proof/Safety.lean ====
section
/-! DEFINITION. What counts as a safe run and as the end of one, in the terms claims use (R14, R262). A stopped core and a
state after which a step faults are never final. -/

namespace Sys2Proof.Machine

/-- A step that has a next state. -/
def StepsTo (s t : State) : Prop := step s = .next t

/-- The first `k` steps from `s` all have a next state (R14). -/
def SafeFor (k : Nat) (s : State) : Prop := ∃ t, Sys2Proof.core.run k s = .next t

/-- The end of a run as a harness defines it: a step would begin at `END_PC`, and no interrupt is taken (R262). It says
nothing of what the hardware does there. Where a claim sets no `END_PC`, no state is the end. -/
def atEnd (s : State) : Bool :=
  match s.cfg.endPc with
  | some e => s.pc == e && s.runState == .running && s.interruptTaken == none
  | none => false

/-- The invariant of a run: what every step with a next state keeps. -/
structure State.Inv (s : State) : Prop where
  /-- memory is in canonical form -/
  memory : s.mem.wf
  /-- the stored-to addresses rise strictly -/
  storedRising : s.stored.Pairwise (· < ·)
  /-- a stored-to address holds a value -/
  storedListed : ∀ a ∈ s.stored, (s.mem.read? a).isSome
  /-- the core is running (R46, R212) -/
  running : s.runState = .running
  /-- the trap bit is set only in Supervisor mode (R32, R34, R210) -/
  trapMode : s.flags.trap = true → s.mode = .supervisor

end Sys2Proof.Machine
end

