-- ==== Sys2Proof/Certificates/Slice0/Obligations.lean ====
section
/-! DEFINITION. What is claimed of the model. Each docstring says which rule of the spec the statement formalises, or that
it rests on a decision of the spec (D<n> of 92_eei_decisions.md) or on a choice of the model (a log entry). Where a
statement needs the decided values of the parameters it says so by a premise; every other parameter, and every state,
is arbitrary. Registers are named here by the spec's own ids, not through the model's maps. -/

namespace Sys2Proof.Machine

/-- Premise: the parameters of R8 have the values the spec decides. -/
def Decided (s : State) : Prop := s.cfg.dec = Decisions.decided

/-- The value of `hgp<k>`, register id 8 + k (R26, R99). -/
def regHgp (s : State) (k : Hgp) : Word := s.regs[8 + k.toNat]'(by have := k.isLt; omega)

/-- The value of `fp`, `sp`, `gp` or `tp`, register id 4 + k (R26, R99). -/
def regIdr (s : State) (k : Idr) : Word := s.regs[4 + k.toNat]'(by have := k.isLt; omega)

/-- The state in which `hgp<k>` is `v`, `pc` is past a 2-byte instruction, and everything else is as in `s`. -/
def putHgp (s : State) (k : Hgp) (v : Word) : State :=
  { s with regs := s.regs.set (8 + k.toNat) v (by have := k.isLt; omega), pc := s.pc + 2 }

/-- The 2 bytes a load finds at `a`, little-endian (R61). -/
def halfAt (s : State) (a : Word) : BitVec 16 := s.mem.byteAt (a + 1) ++ s.mem.byteAt a

/-- The 8 bytes a load finds at `a`, little-endian (R61). -/
def octaAt (s : State) (a : Word) : Word :=
  s.mem.byteAt (a + 7) ++ s.mem.byteAt (a + 6) ++ s.mem.byteAt (a + 5) ++ s.mem.byteAt (a + 4) ++
    s.mem.byteAt (a + 3) ++ s.mem.byteAt (a + 2) ++ s.mem.byteAt (a + 1) ++ s.mem.byteAt a

/-- A byte address in the device regions 0x1000 to 0x3FFF (R71). -/
def inDevice (a : Word) : Prop := 0x1000 ≤ a.toNat ∧ a.toNat ≤ 0x3FFF

/-- `t` is `s` after the `n` low bytes of `v` are stored little-endian at `a` and `pc` has moved to the next instruction.
Every byte outside the `n` reads as before, and nothing else changes but the model's record of stored-to addresses. -/
def StoredAt (s t : State) (a : Word) (n : Nat) (v : Word) : Prop :=
  (∀ i < n, t.mem.read? (a + BitVec.ofNat 64 i).toNat = some (v.extractLsb' (8 * i) 8)) ∧
  (∀ x, (∀ i < n, x ≠ (a + BitVec.ofNat 64 i).toNat) → t.mem.read? x = s.mem.read? x) ∧
  (∀ x, x ∈ t.stored ↔ x ∈ s.stored ∨ ∃ i < n, x = (a + BitVec.ofNat 64 i).toNat) ∧
  t = { s with mem := t.mem, stored := t.stored, pc := s.pc + 2 }

/-- A fetch at the `pc` finds the bytes `b0` and `b1`: the address is even, exists, is no device's, holds them, and was
not stored to in this run (R68). -/
def FetchReady (s : State) (b0 b1 : Byte) : Prop :=
  s.cfg.nCores = 1 ∧ s.pc.toNat % 2 = 0 ∧ validPhys s.cfg s.pc 2 .execute = true ∧ ¬ inDevice s.pc ∧
  s.mem.read? s.pc.toNat = some b0 ∧ s.mem.read? (s.pc + 1).toNat = some b1 ∧
  s.pc.toNat ∉ s.stored ∧ (s.pc + 1).toNat ∉ s.stored

end Sys2Proof.Machine

open Sys2Proof Sys2Proof.Machine

/-! ## Encoding -/

/-- Decoding an encoded instruction gives the instruction back, under every choice of the size code, of what the reserved
bits do, and of every other parameter. 30_encoding.md sections 2 to 4. -/
def Obligations.DecodeOfEncodeIsTheInstruction : Prop :=
  ∀ (d : Decisions) (i : Instr), i.wellFormed = true → decode d (encode d i) = .ok i

/-- Where reserved bits are refused, each instruction has one parcel: encoding what a parcel decodes to gives the parcel
back, and it is well-formed. -/
def Obligations.EncodeOfDecodeIsTheParcel : Prop :=
  ∀ (d : Decisions) (w : Parcel) (i : Instr), d.araccRsvd = .unassigned → decode d w = .ok i →
    encode d i = w ∧ i.wellFormed = true

/-- The opcode map (R104, which the spec marks as derived, over the size code of D4): a parcel is the instruction of a row
exactly when `w AND mask = match`. -/
def Obligations.OpcodeMapIsMaskAndMatch : Prop :=
  ∀ w : Parcel,
    (w &&& 0x003F = 0x0004 ↔ ∃ r o b, decode Decisions.decided w = .ok (.ld r o b)) ∧
    (w &&& 0x003F = 0x0014 ↔ ∃ r o b, decode Decisions.decided w = .ok (.lo r o b)) ∧
    (w &&& 0x003F = 0x0024 ↔ ∃ r o b, decode Decisions.decided w = .ok (.sd r o b)) ∧
    (w &&& 0x003F = 0x0034 ↔ ∃ r o b, decode Decisions.decided w = .ok (.so r o b)) ∧
    (w &&& 0x03FF = 0x0010 ↔ ∃ a b, decode Decisions.decided w = .ok (.add a b)) ∧
    (w &&& 0x03FF = 0x0020 ↔ ∃ a b, decode Decisions.decided w = .ok (.sub a b)) ∧
    (w &&& 0x03FF = 0x0030 ↔ ∃ a b, decode Decisions.decided w = .ok (.mulR a b)) ∧
    (w &&& 0x03FF = 0x0040 ↔ ∃ a b, decode Decisions.decided w = .ok (.divR a b)) ∧
    (w &&& 0x03FF = 0x0050 ↔ ∃ a b, decode Decisions.decided w = .ok (.notR a b)) ∧
    (w &&& 0x03FF = 0x0060 ↔ ∃ a b, decode Decisions.decided w = .ok (.srlR a b)) ∧
    (w &&& 0x03FF = 0x0070 ↔ ∃ a b, decode Decisions.decided w = .ok (.srrR a b)) ∧
    (w &&& 0x03FF = 0x0080 ↔ ∃ a b, decode Decisions.decided w = .ok (.xorR a b)) ∧
    (w &&& 0x03FF = 0x0090 ↔ ∃ a b, decode Decisions.decided w = .ok (.andR a b)) ∧
    (w &&& 0x03FF = 0x00A0 ↔ ∃ a b, decode Decisions.decided w = .ok (.orR a b)) ∧
    (w &&& 0x007F = 0x0008 ↔ ∃ r m, decode Decisions.decided w = .ok (.addiu r m)) ∧
    (w &&& 0x007F = 0x0018 ↔ ∃ r m, decode Decisions.decided w = .ok (.addi r m)) ∧
    (w &&& 0x007F = 0x0028 ↔ ∃ r m, decode Decisions.decided w = .ok (.mulI r m)) ∧
    (w &&& 0x007F = 0x0038 ↔ ∃ r m, decode Decisions.decided w = .ok (.divI r m)) ∧
    (w &&& 0x007F = 0x0048 ↔ ∃ r m, decode Decisions.decided w = .ok (.srlI r m)) ∧
    (w &&& 0x007F = 0x0058 ↔ ∃ r m, decode Decisions.decided w = .ok (.srrI r m)) ∧
    (w &&& 0x007F = 0x0068 ↔ ∃ r m, decode Decisions.decided w = .ok (.xorI r m)) ∧
    (w &&& 0x007F = 0x0078 ↔ ∃ r m, decode Decisions.decided w = .ok (.orI r m))

/-- Bits 3:2 of a 16-bit instruction select the format, RelIAcc 0b01, ARAcc 0b00, AIAcc 0b10, Ctrl 0b11, whatever the size
code is (R92). Every RelIAcc parcel is an instruction (R101, whose fourth opcode 0b11 is the spec's own resolution: D5,
90_conflicts.md C2), every AIAcc parcel is one (R103), and no Ctrl parcel is (R96). -/
def Obligations.EncodingFieldSelectsTheFormat : Prop :=
  ∀ (d : Decisions) (w : Parcel), w.extractLsb' 0 2 = d.sizeCode16 →
    (w.extractLsb' 2 2 = 0b01#2 → ∃ i, decode d w = .ok i ∧ i.format = .relIAcc) ∧
    (w.extractLsb' 2 2 = 0b00#2 → ∀ i, decode d w = .ok i → i.format = .arAcc) ∧
    (w.extractLsb' 2 2 = 0b10#2 → ∃ i, decode d w = .ok i ∧ i.format = .aiAcc) ∧
    (w.extractLsb' 2 2 = 0b11#2 → ∃ r, decode d w = .error r)

/-- The fields of the RelIAcc format at their bit positions (R93), as a sum of powers of 2, and its four opcodes (R101),
whatever the size code is. That opcode 0b11 is `cgc.so` is the spec's own resolution, since the source prints 0b111 (D5,
90_conflicts.md C2). -/
def Obligations.RelIAccFieldsAndOpcodes : Prop :=
  ∀ (d : Decisions) (imm : BitVec 5) (reg : Hgp) (ra : Idr),
    let parcel (op : Nat) : Parcel := BitVec.ofNat 16
      (imm.toNat * 2 ^ 11 + reg.toNat * 2 ^ 8 + ra.toNat * 2 ^ 6 + op * 2 ^ 4 + 0b01 * 2 ^ 2 + d.sizeCode16.toNat)
    let off : BitVec 6 := BitVec.ofNat 6 (imm.toNat * 2)
    decode d (parcel 0b00) = .ok (.ld reg off ra) ∧ decode d (parcel 0b01) = .ok (.lo reg off ra) ∧
    decode d (parcel 0b10) = .ok (.sd reg off ra) ∧ decode d (parcel 0b11) = .ok (.so reg off ra)

/-- R94 and R102: the fields of the ARAcc format at their bit positions, as a sum of powers of 2, its ten opcodes, and the
six values of the opcode field that are not in the table, whatever the size code is. -/
def Obligations.ArAccFieldsAndOpcodes : Prop :=
  ∀ (d : Decisions) (r0 r1 : Hgp),
    let parcel (op : Nat) : Parcel := BitVec.ofNat 16
      (r1.toNat * 2 ^ 13 + r0.toNat * 2 ^ 10 + op * 2 ^ 4 + 0b00 * 2 ^ 2 + d.sizeCode16.toNat)
    decode d (parcel 0b0001) = .ok (.add r0 r1) ∧ decode d (parcel 0b0010) = .ok (.sub r0 r1) ∧
    decode d (parcel 0b0011) = .ok (.mulR r0 r1) ∧ decode d (parcel 0b0100) = .ok (.divR r0 r1) ∧
    decode d (parcel 0b0101) = .ok (.notR r0 r1) ∧ decode d (parcel 0b0110) = .ok (.srlR r0 r1) ∧
    decode d (parcel 0b0111) = .ok (.srrR r0 r1) ∧ decode d (parcel 0b1000) = .ok (.xorR r0 r1) ∧
    decode d (parcel 0b1001) = .ok (.andR r0 r1) ∧ decode d (parcel 0b1010) = .ok (.orR r0 r1) ∧
    ∀ op : Nat, op = 0b0000 ∨ (0b1011 ≤ op ∧ op ≤ 0b1111) → ∃ r, decode d (parcel op) = .error r

/-- R95 and R103: the fields of the AIAcc format at their bit positions, as a sum of powers of 2, and its eight opcodes,
whatever the size code is. -/
def Obligations.AiAccFieldsAndOpcodes : Prop :=
  ∀ (d : Decisions) (rd : Hgp) (imm : BitVec 6),
    let parcel (op : Nat) : Parcel := BitVec.ofNat 16
      (imm.toNat * 2 ^ 10 + rd.toNat * 2 ^ 7 + op * 2 ^ 4 + 0b10 * 2 ^ 2 + d.sizeCode16.toNat)
    decode d (parcel 0b000) = .ok (.addiu rd imm) ∧ decode d (parcel 0b001) = .ok (.addi rd imm) ∧
    decode d (parcel 0b010) = .ok (.mulI rd imm) ∧ decode d (parcel 0b011) = .ok (.divI rd imm) ∧
    decode d (parcel 0b100) = .ok (.srlI rd imm) ∧ decode d (parcel 0b101) = .ok (.srrI rd imm) ∧
    decode d (parcel 0b110) = .ok (.xorI rd imm) ∧ decode d (parcel 0b111) = .ok (.orI rd imm)

/-- Which parcels are no instruction (R105, on decisions D4, D19 and D20): another size code, the Ctrl format, and in the
ARAcc format the reserved bits not zero or an opcode that is not in the table. -/
def Obligations.UnassignedParcelsAreExactlyThese : Prop :=
  ∀ w : Parcel, (∃ r, decode Decisions.decided w = .error r) ↔
    (w.toNat % 4 ≠ 0 ∨ w.toNat / 4 % 4 = 3 ∨
      (w.toNat / 4 % 4 = 0 ∧
        (w.toNat / 256 % 4 ≠ 0 ∨ w.toNat / 16 % 16 = 0 ∨ 11 ≤ w.toNat / 16 % 16)))

/-- Parcels of the vectors TD1, TD2, TD10, TD12, TD21 and TD23 to TD26 of 95_test_vectors.md section 2, on decisions D4 and
D19; that 0xFFF4 is a `cgc.so` rests on D5 too. -/
def Obligations.KnownParcelsDecode : Prop :=
  decode Decisions.decided 0x0000 = .error .araccOpcode ∧ decode Decisions.decided 0x0010 = .ok (.add 0 0) ∧
  decode Decisions.decided 0xFFFC = .error .ctrlFormat ∧ decode Decisions.decided 0xFFF4 = .ok (.so 7 62 3) ∧
  decode Decisions.decided 0x1B44 = .ok (.ld 3 6 1) ∧ decode Decisions.decided 0x8218 = .ok (.addi 4 32) ∧
  decode Decisions.decided 0x8208 = .ok (.addiu 4 32) ∧ decode Decisions.decided 0x8048 = .ok (.srlI 0 32) ∧
  decode Decisions.decided 0xF838 = .ok (.divI 0 62)

/-- What the size field announces (R90 and R91, on decisions D4 and D20): a parcel without the 16-bit size code is no
instruction, and is refused with the length its code stands for, whatever the codes are; the decided codes are 0b00 for 16
bits, 0b01 for 32, 0b10 for 64 and 0b11 for more than 64. -/
def Obligations.SizeFieldAnnouncesTheLength : Prop :=
  (∀ (d : Decisions) (w : Parcel), w.extractLsb' 0 2 ≠ d.sizeCode16 →
    (w.extractLsb' 0 2 = d.sizeCode32 → decode d w = .error (.longerEncoding (some .bits32))) ∧
    (w.extractLsb' 0 2 = d.sizeCode64 → d.sizeCode64 ≠ d.sizeCode32 →
      decode d w = .error (.longerEncoding (some .bits64))) ∧
    (w.extractLsb' 0 2 = d.sizeCodeLonger → d.sizeCodeLonger ≠ d.sizeCode32 → d.sizeCodeLonger ≠ d.sizeCode64 →
      decode d w = .error (.longerEncoding (some .moreThan64)))) ∧
  (∀ w : Parcel,
    (w.toNat % 4 = 1 → decode Decisions.decided w = .error (.longerEncoding (some .bits32))) ∧
    (w.toNat % 4 = 2 → decode Decisions.decided w = .error (.longerEncoding (some .bits64))) ∧
    (w.toNat % 4 = 3 → decode Decisions.decided w = .error (.longerEncoding (some .moreThan64))))

/-! ## Registers -/

/-- R23: a register other than register 0 holds the value last written to it, and register 0 reads `r0_scratch` while the
trap bit is set and zero while it is clear. -/
def Obligations.RegisterReadsTheLastWrite : Prop :=
  ∀ (s : State) (r q : RegId) (v : Word),
    (r ≠ 0#5 → (s.writeReg r v).readReg r = v) ∧
    (q ≠ 0#5 → q ≠ r → (s.writeReg r v).readReg q = s.readReg q) ∧
    s.readReg 0#5 = if s.flags.trap = true then s.r0Scratch else 0#64

/-- A write of register 0 (R24, on decision D22; R25): kept while the trap bit is set, discarded while it is clear. Its
storage survives any trap entry. -/
def Obligations.RegisterZeroIsScratchInTrapsOnly : Prop :=
  ∀ (s : State) (v : Word) (c : Cause) (epc : Word),
    (s.flags.trap = true → (s.writeReg 0#5 v).readReg 0#5 = v ∧ (s.writeReg 0#5 v).r0Scratch = v) ∧
    (s.flags.trap = false → s.writeReg 0#5 v = s) ∧
    (s.enterTrap c epc).readReg 0#5 = s.r0Scratch

/-- R35: the six control and status registers, their addresses, access and minimum mode; each keeps any 64-bit value
written to it, and a write of one changes no other. An address outside the listing names none. -/
def Obligations.CsrListingReadsBackAnyWrite : Prop :=
  (Csr.address .scause = 0x000000 ∧ Csr.address .strap = 0x000001 ∧ Csr.address .sret = 0x000002 ∧
    Csr.address .sscratch = 0x000003 ∧ Csr.address .memmode = 0x010000 ∧ Csr.address .memreg = 0x010014) ∧
  (∀ (a : CsrAddr) (c : Csr), Csr.ofAddress? a = some c ↔ a = c.address) ∧
  (∀ c : Csr, c.access = .aa ∧ c.minimumMode = .supervisor) ∧
  (∀ (s : State) (c e : Csr) (v : Word), (s.writeCsr c v).readCsr c = v ∧
    (e ≠ c → (s.writeCsr c v).readCsr e = s.readCsr e))

/-- CSR addresses and modes (R36, on decision D39; R220, on decision D24): with the decided width a number names a CSR
exactly when it is that CSR's address, under no width does it name another, and of the decided modes Supervisor may access
every CSR and User none. No instruction makes such an access (log 18). -/
def Obligations.CsrAddressWidthAndModes : Prop :=
  (∀ (a : Nat) (c : Csr), csrAt? Decisions.decided a = some c ↔ a = c.address.toNat) ∧
  (∀ (d : Decisions) (a : Nat) (c : Csr), csrAt? d a = some c ↔ a = c.address.toNat ∧ a < 2 ^ d.csrAddrBits) ∧
  (∀ c : Csr, mayAccessCsr Decisions.decided .supervisor c = true ∧ mayAccessCsr Decisions.decided .user c = false)

/-! ## Memory -/

/-- `MemRead` (R66, on decisions D3, D11, D30, D33 and D34): its checks in order, and the sum of the bytes it answers. That it
answers where a byte was never written, with an unknown for that byte, is THE MODEL'S CHOICE (log 2) between the two
treatments R48 offers. MultiCoreLoadsAndFetchesStop has the other settings of `NCORES`. -/
def Obligations.LoadChecksThenLittleEndianSum : Prop :=
  ∀ (s : State) (a : Word) (n : Nat), Decided s → s.cfg.nCores = 1 → n = 2 ∨ n = 8 →
    (a.toNat % n ≠ 0 → memRead s a n = .error (.trap .misalignedRead)) ∧
    (a.toNat % n = 0 → validPhys s.cfg a n .read = false → memRead s a n = .error (.trap .invalidRead)) ∧
    (a.toNat % n = 0 → validPhys s.cfg a n .read = true → inDevice a →
      memRead s a n = .error (.unspecified (.deviceAccess .read a))) ∧
    (a.toNat % n = 0 → validPhys s.cfg a n .read = true → ¬ inDevice a →
      ∃ v, memRead s a n = .ok v ∧
        v.toNat = ∑ i ∈ Finset.range n, (s.mem.byteAt (a + BitVec.ofNat 64 i)).toNat * 2 ^ (8 * i))

/-- `MemWrite` (R67, on decisions D3, D11, D30, D33 and D34): its checks in order, and the bytes it writes, no other
byte. -/
def Obligations.StoreChecksThenLittleEndianBytes : Prop :=
  ∀ (s : State) (a : Word) (n : Nat) (v : Word), Decided s → n = 2 ∨ n = 8 →
    (a.toNat % n ≠ 0 → memWrite s a n v = .error (.trap .misalignedWrite)) ∧
    (a.toNat % n = 0 → validPhys s.cfg a n .write = false → memWrite s a n v = .error (.trap .invalidWrite)) ∧
    (a.toNat % n = 0 → validPhys s.cfg a n .write = true → inDevice a →
      memWrite s a n v = .error (.unspecified (.deviceAccess .write a))) ∧
    (a.toNat % n = 0 → validPhys s.cfg a n .write = true → ¬ inDevice a →
      ∃ t, memWrite s a n v = .ok t ∧ StoredAt s t.advance a n v)

/-- `Fetch` (R68, on decisions D3, D11, D30, D33, D34 and D37): its checks in order, and the parcel it answers. That a fetch
of a byte never written stops with `uninitialisedRead` is THE MODEL'S CHOICE (log 2) between the two treatments R48 offers.
MultiCoreLoadsAndFetchesStop has the other settings of `NCORES`. -/
def Obligations.FetchChecksThenLittleEndianParcel : Prop :=
  ∀ (s : State) (a : Word), Decided s → s.cfg.nCores = 1 →
    (a.toNat % 2 = 1 → fetch s a = .error (.trap .misalignedInstr)) ∧
    (a.toNat % 2 = 0 → validPhys s.cfg a 2 .execute = false → fetch s a = .error (.trap .invalidInstr)) ∧
    (a.toNat % 2 = 0 → validPhys s.cfg a 2 .execute = true → inDevice a →
      fetch s a = .error (.unspecified (.deviceAccess .execute a))) ∧
    (a.toNat % 2 = 0 → validPhys s.cfg a 2 .execute = true → ¬ inDevice a →
      a.toNat ∈ s.stored ∨ (a + 1).toNat ∈ s.stored → fetch s a = .error (.unspecified .fetchOfModifiedCode)) ∧
    (a.toNat % 2 = 0 → validPhys s.cfg a 2 .execute = true → ¬ inDevice a →
      a.toNat ∉ s.stored → (a + 1).toNat ∉ s.stored →
      ((s.mem.read? a.toNat = none ∨ s.mem.read? (a + 1).toNat = none) →
        fetch s a = .error (.unspecified .uninitialisedRead)) ∧
      (∀ b0 b1, s.mem.read? a.toNat = some b0 → s.mem.read? (a + 1).toNat = some b1 →
        ∃ w, fetch s a = .ok w ∧ w.toNat = b0.toNat + 256 * b1.toNat))

/-- Several cores (R76, on decision D36; which of its two options is taken is log 13, DEDUCED): where `NCORES` is not 1, a
load or fetch that passes its checks stops, and so do `cgc.ld` and `cgc.lo`. -/
def Obligations.MultiCoreLoadsAndFetchesStop : Prop :=
  ∀ (s : State) (a : Word), Decided s → s.cfg.nCores ≠ 1 → ¬ inDevice a →
    (∀ n : Nat, n = 2 ∨ n = 8 → a.toNat % n = 0 → validPhys s.cfg a n .read = true →
      memRead s a n = .error (.unspecified .multiCoreUnmodelled)) ∧
    (a.toNat % 2 = 0 → validPhys s.cfg a 2 .execute = true →
      fetch s a = .error (.unspecified .multiCoreUnmodelled)) ∧
    (∀ (rd : Hgp) (off : BitVec 6) (ra : Idr), a = regIdr s ra + off.zeroExtend 64 →
      (a.toNat % 2 = 0 → validPhys s.cfg a 2 .read = true → exec (.ld rd off ra) s = .fault .multiCoreUnmodelled) ∧
      (a.toNat % 8 = 0 → validPhys s.cfg a 8 .read = true → exec (.lo rd off ra) s = .fault .multiCoreUnmodelled))

/-- Mixed widths (R63, which the spec marks as derived): the four halfwords of a stored 8-byte value, and an 8-byte value
built of two stored halfwords. That the 8-byte load answers although its other bytes may never have been written is THE
MODEL'S CHOICE (log 2) between the two treatments R48 offers. -/
def Obligations.MixedWidthsAgree : Prop :=
  ∀ (s : State) (a : Word), Decided s → s.cfg.nCores = 1 →
    (∀ (v : Word) (k : Nat), k < 4 → a.toNat % 8 = 0 → ¬ inDevice a → validPhys s.cfg a 8 .write = true →
      validPhys s.cfg (a + BitVec.ofNat 64 (2 * k)) 2 .read = true →
      ∃ t, memWrite s a 8 v = .ok t ∧
        memRead t (a + BitVec.ofNat 64 (2 * k)) 2 = .ok ((v.extractLsb' (16 * k) 16).zeroExtend 64)) ∧
    (∀ v u : Word, a.toNat % 8 = 0 → ¬ inDevice a → validPhys s.cfg a 2 .write = true →
      validPhys s.cfg (a + 2) 2 .write = true → validPhys s.cfg a 8 .read = true →
      ∃ t t' w, memWrite s a 2 v = .ok t ∧ memWrite t (a + 2) 2 u = .ok t' ∧ memRead t' a 8 = .ok w ∧
        w.extractLsb' 0 16 = v.extractLsb' 0 16 ∧ w.extractLsb' 16 16 = u.extractLsb' 0 16)

/-- Bytes this run has stored are not fetched (R79, on decision D37). -/
def Obligations.StoredBytesAreNotFetched : Prop :=
  ∀ (s : State) (a p : Word) (n i : Nat) (v : Word), Decided s → s.cfg.nCores = 1 → i < n →
    p = a + BitVec.ofNat 64 i ∨ p + 1 = a + BitVec.ofNat 64 i →
    p.toNat % 2 = 0 → validPhys s.cfg p 2 .execute = true → ¬ inDevice p →
    fetch (s.store a n v) p = .error (.unspecified .fetchOfModifiedCode)

/-- The device regions (R71, R74, R231, on decisions D33 and D34): their bytes exist on every platform for every kind of
access, and the 4096 registers "Core n Control" fill the Core Control region from 0x2000, 2 bytes each. -/
def Obligations.DeviceRegionsExistEverywhere : Prop :=
  (∀ (c : Config) (a : Nat) (k : AccessKind), 0x1000 ≤ a → a ≤ 0x3FFF → validByte c a k = true) ∧
  (∀ n : BitVec 12, coreControlAddress Decisions.decided n = 0x2000 + 2 * n.toNat ∧
    inCcr (coreControlAddress Decisions.decided n) = true ∧
    inCcr (coreControlAddress Decisions.decided n + 1) = true)

/-! ## RelIAcc instructions -/

/-- `cgc.ld` (R121, on decisions D8, D9 and D11): 2 bytes, zero-extended, into rd; else the trap or the stop of its one
access, with nothing written before it. That the load of a byte never written completes, with an unknown for it, is THE
MODEL'S CHOICE (log 2) between the two treatments R48 offers. MultiCoreLoadsAndFetchesStop has the other settings of
`NCORES`. -/
def Obligations.LoadHalfwordRule : Prop :=
  ∀ w : Parcel, w &&& 0x003F = 0x0004 → ∀ (rd : Hgp) (ra : Idr) (off : BitVec 6),
    rd = w.extractLsb' 8 3 → ra = w.extractLsb' 6 2 → off = w.extractLsb' 11 5 ++ 0b0#1 →
    decode Decisions.decided w = .ok (.ld rd off ra) ∧
    ∀ (s : State) (ea : Word), Decided s → s.cfg.nCores = 1 → ea = regIdr s ra + off.zeroExtend 64 →
      (ea.toNat % 2 ≠ 0 → exec (.ld rd off ra) s = trapEntry (.internal .misalignedRead) s.pc s) ∧
      (ea.toNat % 2 = 0 → validPhys s.cfg ea 2 .read = false →
        exec (.ld rd off ra) s = trapEntry (.internal .invalidRead) s.pc s) ∧
      (ea.toNat % 2 = 0 → validPhys s.cfg ea 2 .read = true → inDevice ea →
        exec (.ld rd off ra) s = .fault (.deviceAccess .read ea)) ∧
      (ea.toNat % 2 = 0 → validPhys s.cfg ea 2 .read = true → ¬ inDevice ea →
        exec (.ld rd off ra) s = .next (putHgp s rd ((halfAt s ea).zeroExtend 64)))

/-- `cgc.lo` (R122, on decisions D8 and D11): 8 bytes into rd; else the trap or the stop of its one access, with nothing
written before it. That the load of a byte never written completes, with an unknown for it, is THE MODEL'S CHOICE (log 2)
between the two treatments R48 offers. MultiCoreLoadsAndFetchesStop has the other settings of `NCORES`. -/
def Obligations.LoadOctabyteRule : Prop :=
  ∀ w : Parcel, w &&& 0x003F = 0x0014 → ∀ (rd : Hgp) (ra : Idr) (off : BitVec 6),
    rd = w.extractLsb' 8 3 → ra = w.extractLsb' 6 2 → off = w.extractLsb' 11 5 ++ 0b0#1 →
    decode Decisions.decided w = .ok (.lo rd off ra) ∧
    ∀ (s : State) (ea : Word), Decided s → s.cfg.nCores = 1 → ea = regIdr s ra + off.zeroExtend 64 →
      (ea.toNat % 8 ≠ 0 → exec (.lo rd off ra) s = trapEntry (.internal .misalignedRead) s.pc s) ∧
      (ea.toNat % 8 = 0 → validPhys s.cfg ea 8 .read = false →
        exec (.lo rd off ra) s = trapEntry (.internal .invalidRead) s.pc s) ∧
      (ea.toNat % 8 = 0 → validPhys s.cfg ea 8 .read = true → inDevice ea →
        exec (.lo rd off ra) s = .fault (.deviceAccess .read ea)) ∧
      (ea.toNat % 8 = 0 → validPhys s.cfg ea 8 .read = true → ¬ inDevice ea →
        exec (.lo rd off ra) s = .next (putHgp s rd (octaAt s ea)))

/-- `cgc.sd` (R123, on decisions D8, D10 and D11): the low 2 bytes of rs to memory, no other byte; else the trap or the
stop of its one access, with no byte written. -/
def Obligations.StoreHalfwordRule : Prop :=
  ∀ w : Parcel, w &&& 0x003F = 0x0024 → ∀ (rs : Hgp) (ra : Idr) (off : BitVec 6),
    rs = w.extractLsb' 8 3 → ra = w.extractLsb' 6 2 → off = w.extractLsb' 11 5 ++ 0b0#1 →
    decode Decisions.decided w = .ok (.sd rs off ra) ∧
    ∀ (s : State) (ea : Word), Decided s → ea = regIdr s ra + off.zeroExtend 64 →
      (ea.toNat % 2 ≠ 0 → exec (.sd rs off ra) s = trapEntry (.internal .misalignedWrite) s.pc s) ∧
      (ea.toNat % 2 = 0 → validPhys s.cfg ea 2 .write = false →
        exec (.sd rs off ra) s = trapEntry (.internal .invalidWrite) s.pc s) ∧
      (ea.toNat % 2 = 0 → validPhys s.cfg ea 2 .write = true → inDevice ea →
        exec (.sd rs off ra) s = .fault (.deviceAccess .write ea)) ∧
      (ea.toNat % 2 = 0 → validPhys s.cfg ea 2 .write = true → ¬ inDevice ea →
        ∃ t, exec (.sd rs off ra) s = .next t ∧ StoredAt s t ea 2 (regHgp s rs))

/-- `cgc.so` (R124, on decisions D8 and D11): the 8 bytes of rs to memory, no other byte; else the trap or the stop of its
one access, with no byte written. -/
def Obligations.StoreOctabyteRule : Prop :=
  ∀ w : Parcel, w &&& 0x003F = 0x0034 → ∀ (rs : Hgp) (ra : Idr) (off : BitVec 6),
    rs = w.extractLsb' 8 3 → ra = w.extractLsb' 6 2 → off = w.extractLsb' 11 5 ++ 0b0#1 →
    decode Decisions.decided w = .ok (.so rs off ra) ∧
    ∀ (s : State) (ea : Word), Decided s → ea = regIdr s ra + off.zeroExtend 64 →
      (ea.toNat % 8 ≠ 0 → exec (.so rs off ra) s = trapEntry (.internal .misalignedWrite) s.pc s) ∧
      (ea.toNat % 8 = 0 → validPhys s.cfg ea 8 .write = false →
        exec (.so rs off ra) s = trapEntry (.internal .invalidWrite) s.pc s) ∧
      (ea.toNat % 8 = 0 → validPhys s.cfg ea 8 .write = true → inDevice ea →
        exec (.so rs off ra) s = .fault (.deviceAccess .write ea)) ∧
      (ea.toNat % 8 = 0 → validPhys s.cfg ea 8 .write = true → ¬ inDevice ea →
        ∃ t, exec (.so rs off ra) s = .next t ∧ StoredAt s t ea 8 (regHgp s rs))

/-! ## ARAcc instructions -/

/-- What the ten ARAcc instructions have in common (R130, on decisions D15, D19 and D20). A parcel
of the format with bits 9:8 not 0b00 is no instruction and stops the step. Every instruction of the format computes from
the old values of the registers its two fields name, writes the second of them and moves `pc` past itself, and nothing
else; it enters no trap, and stops only on a division that has no quotient. -/
def Obligations.ArAccWritesItsSecondRegisterAlone : Prop :=
  ∀ w : Parcel, w.extractLsb' 0 2 = 0b00#2 → w.extractLsb' 2 2 = 0b00#2 →
    (w.extractLsb' 8 2 ≠ 0b00#2 → ∃ r, ∀ s, Decided s → executeParcel w s = .fault (.unassignedEncoding r)) ∧
    (∀ i, decode Decisions.decided w = .ok i → ∃ f : Word → Word → Option Word, ∀ s, Decided s →
      exec i s = match f (regHgp s (w.extractLsb' 10 3)) (regHgp s (w.extractLsb' 13 3)) with
        | some v => .next (putHgp s (w.extractLsb' 13 3) v)
        | none => .fault .divisionUndefined)

/-- R138, R139 and R140: `cgc.xor`, `cgc.and` and `cgc.or` of two registers, bit by bit, at their encodings. -/
def Obligations.RegisterLogicIsBitByBit : Prop :=
  ∀ (w : Parcel) (A B : Hgp), A = w.extractLsb' 10 3 → B = w.extractLsb' 13 3 →
    (w &&& 0x03FF = 0x0080 → decode Decisions.decided w = .ok (.xorR A B)) ∧
    (w &&& 0x03FF = 0x0090 → decode Decisions.decided w = .ok (.andR A B)) ∧
    (w &&& 0x03FF = 0x00A0 → decode Decisions.decided w = .ok (.orR A B)) ∧
    ∀ s, Decided s → ∃ x y z,
      exec (.xorR A B) s = .next (putHgp s B x) ∧ exec (.andR A B) s = .next (putHgp s B y) ∧
      exec (.orR A B) s = .next (putHgp s B z) ∧
      ∀ i < 64, x.getLsbD i = ((regHgp s B).getLsbD i != (regHgp s A).getLsbD i) ∧
        y.getLsbD i = ((regHgp s B).getLsbD i && (regHgp s A).getLsbD i) ∧
        z.getLsbD i = ((regHgp s B).getLsbD i || (regHgp s A).getLsbD i)

/-- `cgc.add`, `cgc.sub` and `cgc.mul` of two registers (R131 to R133 and R141, on decision D12): the low 64 bits of the
exact result, the same whether the operands are read as signed or as unsigned. -/
def Obligations.RegisterArithmeticKeepsTheLow64Bits : Prop :=
  ∀ (s : State) (A B : Hgp), Decided s → ∃ x y z,
    exec (.add A B) s = .next (putHgp s B x) ∧ exec (.sub A B) s = .next (putHgp s B y) ∧
    exec (.mulR A B) s = .next (putHgp s B z) ∧
    x = BitVec.ofInt 64 ((regHgp s B).toInt + (regHgp s A).toInt) ∧
    x = BitVec.ofInt 64 ((regHgp s B).toNat + (regHgp s A).toNat) ∧
    y = BitVec.ofInt 64 ((regHgp s B).toInt - (regHgp s A).toInt) ∧
    y = BitVec.ofInt 64 ((regHgp s B).toNat - (regHgp s A).toNat) ∧
    z = BitVec.ofInt 64 ((regHgp s B).toInt * (regHgp s A).toInt) ∧
    z = BitVec.ofInt 64 ((regHgp s B).toNat * (regHgp s A).toNat)

/-- `cgc.div` of two registers (R134 and R142, on decisions D13 and D14): dividend r1, divisor r0; the exact signed quotient
rounded toward zero, or the stop on a zero divisor and on -2^63 by -1. -/
def Obligations.RegisterDivisionRoundsTowardZero : Prop :=
  ∀ (s : State) (A B : Hgp) (n d : Word), Decided s → n = regHgp s B → d = regHgp s A →
    (d ≠ 0#64 → ¬ (n.toInt = -2 ^ 63 ∧ d.toInt = -1) →
      ∃ q, exec (.divR A B) s = .next (putHgp s B q) ∧ q.toInt = n.toInt.tdiv d.toInt) ∧
    (d = 0#64 ∨ (n.toInt = -2 ^ 63 ∧ d.toInt = -1) → exec (.divR A B) s = .fault .divisionUndefined)

/-- `cgc.not` (R135, on decision D15): the complement of r0 into r1. -/
def Obligations.NotWritesTheComplementOfR0 : Prop :=
  ∀ (s : State) (A B : Hgp), Decided s → ∃ v,
    exec (.notR A B) s = .next (putHgp s B v) ∧ ∀ i < 64, v.getLsbD i = !(regHgp s A).getLsbD i

/-- The register shifts (R136, R137 and R143, on decisions D16 and D17): `cgc.srl` shifts LEFT and `cgc.srr` RIGHT, by the
low 6 bits of r0, and zeros enter. -/
def Obligations.RegisterShiftsByTheLowSixBits : Prop :=
  ∀ (s : State) (A B : Hgp) (k : Nat), Decided s → k = (regHgp s A).toNat % 64 →
    exec (.srlR A B) s = .next (putHgp s B (BitVec.ofNat 64 ((regHgp s B).toNat * 2 ^ k))) ∧
    exec (.srrR A B) s = .next (putHgp s B (BitVec.ofNat 64 ((regHgp s B).toNat / 2 ^ k)))

/-! ## AIAcc instructions -/

/-- What the eight AIAcc instructions have in common (R150). The immediate is zero- or sign-extended from 6 bits. Every
instruction of the format computes from the old value of the register its field names, writes that register and moves `pc`
past itself, and nothing else; it enters no trap. The arm that stops is that of a division with no quotient (R142 and R154,
on decision D14). -/
def Obligations.AiAccWritesItsRegisterAlone : Prop :=
  (∀ imm : BitVec 6, (immUnsigned imm).toNat = imm.toNat ∧
    immSigned imm = if imm.toNat < 32 then BitVec.ofNat 64 imm.toNat
      else BitVec.ofNat 64 (0xFFFFFFFFFFFFFFE0 + (imm.toNat - 32))) ∧
  (∀ (w : Parcel) (i : Instr), w.extractLsb' 2 2 = 0b10#2 → decode Decisions.decided w = .ok i →
    ∃ f : Word → Option Word, ∀ s, Decided s →
      exec i s = match f (regHgp s (w.extractLsb' 7 3)) with
        | some v => .next (putHgp s (w.extractLsb' 7 3) v)
        | none => .fault .divisionUndefined)

/-- R157 and R158: `cgc.xor` and `cgc.or` with a sign-extended immediate, bit by bit, at their encodings: bits 63:5 of the
immediate are copies of its bit 5. -/
def Obligations.ImmediateLogicIsBitByBit : Prop :=
  ∀ (w : Parcel) (D : Hgp) (imm : BitVec 6), D = w.extractLsb' 7 3 → imm = w.extractLsb' 10 6 →
    (w &&& 0x007F = 0x0068 → decode Decisions.decided w = .ok (.xorI D imm)) ∧
    (w &&& 0x007F = 0x0078 → decode Decisions.decided w = .ok (.orI D imm)) ∧
    ∀ s, Decided s → ∃ x z,
      exec (.xorI D imm) s = .next (putHgp s D x) ∧ exec (.orI D imm) s = .next (putHgp s D z) ∧
      ∀ i < 64, x.getLsbD i = ((regHgp s D).getLsbD i != imm.getLsbD (min i 5)) ∧
        z.getLsbD i = ((regHgp s D).getLsbD i || imm.getLsbD (min i 5))

/-- `cgc.addiu`, `cgc.addi` and `cgc.mul` with an immediate (R151 to R153 and R141, on decision D12): the low 64 bits of the
exact result, the immediate unsigned in the first and signed in the others. -/
def Obligations.ImmediateArithmeticKeepsTheLow64Bits : Prop :=
  ∀ (s : State) (D : Hgp) (imm : BitVec 6), Decided s →
    exec (.addiu D imm) s = .next (putHgp s D (BitVec.ofInt 64 ((regHgp s D).toInt + imm.toNat))) ∧
    exec (.addi D imm) s = .next (putHgp s D (BitVec.ofInt 64 ((regHgp s D).toInt + imm.toInt))) ∧
    exec (.mulI D imm) s = .next (putHgp s D (BitVec.ofInt 64 ((regHgp s D).toInt * imm.toInt)))

/-- `cgc.div` with an immediate (R154 and R142, on decisions D13 and D14). -/
def Obligations.ImmediateDivisionRoundsTowardZero : Prop :=
  ∀ (s : State) (D : Hgp) (imm : BitVec 6) (n : Word), Decided s → n = regHgp s D →
    (imm ≠ 0#6 → ¬ (n.toInt = -2 ^ 63 ∧ imm.toInt = -1) →
      ∃ q, exec (.divI D imm) s = .next (putHgp s D q) ∧ q.toInt = n.toInt.tdiv imm.toInt) ∧
    (imm = 0#6 ∨ (n.toInt = -2 ^ 63 ∧ imm.toInt = -1) → exec (.divI D imm) s = .fault .divisionUndefined)

/-- The immediate shifts (R155 and R156, on decisions D16 and D18): by the unsigned immediate, and zeros enter. -/
def Obligations.ImmediateShiftsByTheUnsignedImmediate : Prop :=
  ∀ (s : State) (D : Hgp) (imm : BitVec 6), Decided s →
    exec (.srlI D imm) s = .next (putHgp s D (BitVec.ofNat 64 ((regHgp s D).toNat * 2 ^ imm.toNat))) ∧
    exec (.srrI D imm) s = .next (putHgp s D (BitVec.ofNat 64 ((regHgp s D).toNat / 2 ^ imm.toNat)))

/-- Instructions that change nothing but `pc`, under every choice of every parameter: `cgc.addiu` and `cgc.addi` of 0 and
`cgc.or` of a register with itself (R174 and R110, which the spec marks as derived), and `cgc.and` of a register with
itself (R139, its corner case). -/
def Obligations.IdleInstructionsChangeOnlyThePc : Prop :=
  ∀ (s : State) (k : Hgp),
    exec (.addiu k 0#6) s = .next s.advance ∧ exec (.addi k 0#6) s = .next s.advance ∧
    exec (.orR k k) s = .next s.advance ∧ exec (.andR k k) s = .next s.advance

/-- THE MODEL'S CHOICE (log 12; R142 gives these divisions no quotient): with the parameter `DIV0` at `freeValue`, division
never stops. Nothing is said of the quotient in the corners. -/
def Obligations.FreeQuotientsNeverStop : Prop :=
  ∀ (s : State) (A B : Hgp) (imm : BitVec 6), s.cfg.dec.div0 = .freeValue →
    (∃ q, exec (.divR A B) s = .next (s.setHgp B q).advance) ∧
    (∃ q, exec (.divI B imm) s = .next (s.setHgp B q).advance)

/-! ## Safe domains -/

/-- The safe domain of division (R142 and R15, which the spec marks as derived): with bit 63 of both operands clear and a
divisor that is not 0, every reading, and every setting of every other parameter, gives the unsigned quotient. -/
def Obligations.DivisionReadingsAgreeInTheSafeDomain : Prop :=
  ∀ (p : Decisions) (n d : Word), n.getLsbD 63 = false → d.getLsbD 63 = false → d ≠ 0#64 →
    ∃ q, divide p n d = some q ∧ q.toNat = n.toNat / d.toNat

/-- The safe domains of the shifts and of `cgc.not` (R143, R135 and R15, which the spec marks as derived): an amount below
64, a right shift of a value with bit 63 clear or by 0, and both fields naming the same register. -/
def Obligations.ShiftAndNotReadingsAgreeInTheSafeDomain : Prop :=
  (∀ (p : Decisions) (a : Word), a.toNat < 64 → shiftAmount p a = a.toNat) ∧
  (∀ (p : Decisions) (v : Word) (k : Nat), k < 64 → v.getLsbD 63 = false ∨ k = 0 →
    (shiftRight p v k).toNat = v.toNat / 2 ^ k) ∧
  (∀ (s : State) (k : Hgp), exec (.notR k k) s = .next (s.setHgp k (~~~ s.hgp k)).advance)

/-- The safe domains of the RelIAcc offset, of `cgc.ld` and of the handler address (R97, R121, R213 and R15, which the spec
marks as derived). -/
def Obligations.AddressAndLoadReadingsAgreeInTheSafeDomain : Prop :=
  (∀ (p : Decisions) (off : BitVec 6), off.getLsbD 5 = false → (offsetValue p off).toNat = off.toNat) ∧
  (∀ (p : Decisions) (old v : Word), v.getLsbD 15 = false → p.ldExt ≠ .keep ∨ old.toNat < 2 ^ 16 →
    (extendHalfword p old v).toNat = v.toNat % 2 ^ 16) ∧
  (∀ (p : Decisions) (strap : Word), strap.getLsbD 62 = false →
    (handlerAddress p strap).toNat = strap.toNat % 2 ^ 63)

/-! ## Traps and interrupts -/

/-- The cause table (R201 and R211, its last column on decision D26): the number and source of each of the twelve causes,
what `scause` receives, and that no two causes give it the same value. -/
def Obligations.CauseTableIsInjective : Prop :=
  ([Cause.external .msi, .external .timer, .external .extDev, .internal .misalignedInstr, .internal .misalignedRead,
      .internal .misalignedWrite, .internal .invalidInstr, .internal .invalidRead, .internal .invalidWrite,
      .internal .instrPageFault, .internal .readPageFault, .internal .writePageFault].map
    fun c => (causeSource c, causeNumber c)) =
    [(1, 0x00), (1, 0x02), (1, 0x04), (0, 0x00), (0, 0x02), (0, 0x04), (0, 0x06), (0, 0x08), (0, 0x0A), (0, 0x0C),
      (0, 0x0E), (0, 0x10)] ∧
  (∀ c, scauseEncode Decisions.decided c = causeNumber c + causeSource c) ∧
  (∀ c e, scauseEncode Decisions.decided c = scauseEncode Decisions.decided e → c = e)

/-- `SCAUSE_ENCODE` (R211, on decision D26): whatever table is configured, it gives no two of the twelve causes the same
value of `scause`. -/
def Obligations.ScauseEncodingIsInjective : Prop :=
  ∀ (d : Decisions) (c e : Cause), scauseEncode d c = scauseEncode d e → c = e

/-- Trap entry with trapping on (R210, R211, R213 and R214, on decisions D25 to D28): the whole next state, of every cause
and from every mode. -/
def Obligations.TrapEntrySavesCauseAndPc : Prop :=
  ∀ (s : State) (c : Cause) (epc : Word), Decided s → s.strap.getLsbD 63 = true →
    ∃ cause handler, trapEntry c epc s =
        .next { s with scause := cause, sret := epc, flags := { trap := true }, mode := .supervisor, pc := handler } ∧
      cause.toNat = (causeNumber c).toNat + (causeSource c).toNat ∧ handler.toNat = s.strap.toNat % 2 ^ 63

/-- A trap with trapping off stops the core for good (R212, on decision D29). That the state left differs in `run_state` alone,
with `scause` and `sret` as they were, is THE MODEL'S CHOICE (log 10): R212 says that this is not said. -/
def Obligations.TrapWhileDisabledStopsTheCore : Prop :=
  ∀ (s : State) (c : Cause) (epc : Word), s.strap.getLsbD 63 = false →
    ∃ left, trapEntry c epc s = .fault (.trapWhileDisabled left) ∧ left = { s with runState := .stopped } ∧
      step left = .fault .coreStopped

/-- Nesting (R217, which the spec marks as derived): a second trap overwrites what the first saved, and nothing of the
first remains. -/
def Obligations.NestedTrapOverwritesTheFirst : Prop :=
  ∀ (s : State) (c e : Cause) (p q : Word), s.strapOn = true →
    trapEntry e q (s.enterTrap c p) = trapEntry e q s

/-- Which cause an access reports (R202 and R73, on decisions D11, D32 and D33): a fetch, a load and a store each have
their own two, and no page fault is ever raised. -/
def Obligations.AccessesRaiseTheirOwnCausesOnly : Prop :=
  ∀ (c : Config) (a : Word) (n : Nat) (k : AccessKind) (t : IntCause), accessTrap c a n k = some t →
    (k = .execute → t = .misalignedInstr ∨ t = .invalidInstr) ∧
    (k = .read → t = .misalignedRead ∨ t = .invalidRead) ∧
    (k = .write → t = .misalignedWrite ∨ t = .invalidWrite)

/-- Taking an interrupt (R200, R205 and R208, on decisions D25 to D28 and D31): where the environment and the core so
choose, the step is the trap of that cause, before the instruction at `pc` has done anything; its pending bit is cleared.
It is not masked by the trap bit. The schedule of choices is the model's (log 4). -/
def Obligations.PendingInterruptIsTakenAtTheBoundary : Prop :=
  ∀ (s : State) (b : Boundary) (rest : List Boundary) (c : ExtCause), Decided s → s.runState = .running →
    s.env = b :: rest → b.take = some c → s.pending.get c = true ∨ b.raise.get c = true →
    s.strap.getLsbD 63 = true →
    ∃ cause handler p, step s =
        .next { s with scause := cause, sret := s.pc, flags := { trap := true }, mode := .supervisor, pc := handler,
                       pending := p, env := rest } ∧
      cause.toNat = (extCauseNumber c).toNat + 1 ∧ handler.toNat = s.strap.toNat % 2 ^ 63 ∧
      ∀ e, p.get e = if e = c then false else (s.pending.get e || b.raise.get e)

/-- Where nothing is taken, or what would be taken is not pending, the step runs the instruction at `pc`, with the
environment's bits now pending (R205, on decision D31; the schedule is the model's, log 4). -/
def Obligations.NothingPendingNothingTaken : Prop :=
  ∀ s : State, s.runState = .running →
    (s.env = [] → step s = runInstruction s) ∧
    (∀ (b : Boundary) (rest : List Boundary), s.env = b :: rest →
      (∀ c, b.take = some c → s.pending.get c = false ∧ b.raise.get c = false) →
      step s = runInstruction { s with pending := s.pending.union b.raise, env := rest })

/-! ## The step -/

/-- A step runs the decoded instruction: where no interrupt is taken and the two bytes at `pc` decode to `i`, the step is
`exec i` at the state past the boundary (R200). -/
def Obligations.StepRunsTheDecodedInstruction : Prop :=
  ∀ (s : State) (b0 b1 : Byte) (i : Instr), Decided s → s.runState = .running → s.interruptTaken = none →
    FetchReady s b0 b1 → decode Decisions.decided (b1 ++ b0) = .ok i → step s = exec i s.atBoundary

/-- A parcel that is no instruction stops the step, and enters no trap (R105, R144, R171 and R184, on decision D20). -/
def Obligations.UnassignedParcelStopsTheStep : Prop :=
  ∀ (s : State) (b0 b1 : Byte) (r : DecodeReject), Decided s → s.runState = .running → s.interruptTaken = none →
    FetchReady s b0 b1 → decode Decisions.decided (b1 ++ b0) = .error r → step s = .fault (.unassignedEncoding r)

/-- An odd handler address (R213 and U30, on decisions D11 and D25): the core, once there, enters the same address at every
step for ever, whatever the environment does, and changes no main register and no byte of memory. -/
def Obligations.OddHandlerAddressTrapsForEver : Prop :=
  ∀ (s : State) (k : Nat), Decided s → s.runState = .running → s.strap.getLsbD 63 = true → s.strap.getLsbD 0 = true →
    s.pc.toNat = s.strap.toNat % 2 ^ 63 →
    ∃ t, Sys2Proof.core.run k s = .next t ∧ t.pc = s.pc ∧ t.regs = s.regs ∧ t.mem = s.mem

/-! ## Invariants of every step -/

/-- Every step keeps the invariant of Safety.lean: memory and the stored-to addresses canonical, every stored-to address
holding a value, the core running, and the trap bit set in Supervisor mode only (R32, R34, R46, R210). -/
def Obligations.StepKeepsTheInvariant : Prop :=
  ∀ s t : State, s.Inv → step s = .next t → t.Inv

/-- The invariant holds at reset. It rests on the model's reset values (log 6): the source gives none (R47). -/
def Obligations.ResetMeetsTheInvariant : Prop := State.reset.Inv

/-- Every launch starts at its `RESET_PC`, running, and meets the invariant, whatever the configuration is (R46, R47 and
R250, on decision D35). Its other values are THE MODEL'S CHOICE (log 6). -/
def Obligations.EveryLaunchMeetsTheInvariant : Prop :=
  ∀ c : Config, (State.launch c).pc = c.resetPc ∧ (State.launch c).runState = .running ∧ (State.launch c).cfg = c ∧
    (State.launch c).Inv

/-- The `pc` stays even under an even handler address (R30 and R252, on decision D21), whatever the parameters are. -/
def Obligations.StepKeepsThePcEven : Prop :=
  ∀ s t : State, s.pc.getLsbD 0 = false → s.strap.getLsbD 0 = false → step s = .next t →
    t.pc.getLsbD 0 = false ∧ t.strap.getLsbD 0 = false

/-- What no step ever changes: `strap`, `sscratch`, `memmode`, `memreg`, and the main registers 0 to 7 and 16 to 31 (R25, R26
and R38 to R43, on decisions D6, D7 and D32). The trap bit is never cleared and the mode never lowered (R32, R34, on
decisions D23 and D24). A step with a next state leaves the core running (R46 and R241, on decision D29). That the
configuration never changes is THE MODEL'S CHOICE of holding the parameters of R8 in State (log 1). -/
def Obligations.StepNeverTouchesTheseFields : Prop :=
  ∀ s t : State, Decided s → step s = .next t →
    t.cfg = s.cfg ∧ t.strap = s.strap ∧ t.sscratch = s.sscratch ∧ t.memmode = s.memmode ∧ t.memreg = s.memreg ∧
    (∀ (r : Nat) (h : r < 32), r < 8 ∨ 16 ≤ r → t.regs[r] = s.regs[r]) ∧
    (s.flags.trap = true → t.flags.trap = true) ∧ (s.mode = .supervisor → t.mode = .supervisor) ∧
    t.runState = s.runState

/-- The only two things a step can do to the flow of control (R30, R43, R210 and R216, on decisions D21 and D25): move `pc`
to the next instruction and leave the trap registers alone, or enter a trap, precisely: with every main register and every
byte of memory as it was, and the model's record of stored-to addresses (log 5) too. -/
def Obligations.StepAdvancesOrTrapsPrecisely : Prop :=
  ∀ s t : State, Decided s → step s = .next t →
    (t.pc = s.pc + 2 ∧ t.scause = s.scause ∧ t.sret = s.sret ∧ t.flags = s.flags ∧ t.mode = s.mode) ∨
    (s.strap.getLsbD 63 = true ∧ t.pc.toNat = s.strap.toNat % 2 ^ 63 ∧ t.sret = s.pc ∧ t.flags.trap = true ∧
      t.mode = .supervisor ∧ t.regs = s.regs ∧ t.mem = s.mem ∧ t.stored = s.stored ∧
      ∃ c, t.scause = scauseEncode Decisions.decided c)

/-- `sscratch`, `memmode` and `memreg` have no effect (R40, R41 and R42, on decision D32): a run cannot tell what they
hold. -/
def Obligations.InertRegistersHaveNoEffect : Prop :=
  ∀ (s t : State) (a b c : Word), step s = .next t →
    step { s with sscratch := a, memmode := b, memreg := c } =
      .next { t with sscratch := a, memmode := b, memreg := c }

/-- No instruction behaves differently in the two modes (R34 and R220, on decision D24): a step from another mode differs
in the mode alone. -/
def Obligations.ModeHasNoEffectOnAStep : Prop :=
  ∀ (s t : State) (m : Mode), step s = .next t → ∃ m', step { s with mode := m } = .next { t with mode := m' }
end

