-- ==== Sys2Proof/Laws/Memory.lean ====
section
/-! SUPPORT. The byte array: reading after writing, what a write leaves alone, and that every operation keeps the
canonical form of memory and of the stored-to addresses. -/

namespace Sys2Proof.Machine

/-- Reading after writing one byte. -/
theorem Memory.read?_write (m : Memory) (a : Nat) (v : Byte) (x : Nat) :
    (m.write a v).read? x = if x = a then some v else m.read? x := by
  induction m with
  | nil =>
    by_cases h : x = a
    · simp [Memory.write, Memory.read?, h]
    · simp [Memory.write, Memory.read?, h, Ne.symm h]
  | cons c m ih =>
    obtain ⟨k, b⟩ := c
    by_cases h : x = a
    · subst h
      by_cases h1 : x < k
      · simp [Memory.write, Memory.read?, h1]
      · by_cases h2 : x = k
        · simp [Memory.write, Memory.read?, h2]
        · simp [Memory.write, Memory.read?, h1, h2, Ne.symm h2, ih]
    · have h' : a ≠ x := Ne.symm h
      by_cases h1 : a < k
      · simp [Memory.write, Memory.read?, h1, h, h']
      · by_cases h2 : a = k
        · simp [Memory.write, Memory.read?, ← h2, h, h']
        · simp [Memory.write, Memory.read?, h1, h2, ih, h]

theorem Memory.read?_write_same (m : Memory) (a : Nat) (v : Byte) : (m.write a v).read? a = some v := by
  simp [Memory.read?_write]

theorem Memory.read?_write_ne (m : Memory) (a : Nat) (v : Byte) (x : Nat) (h : x ≠ a) :
    (m.write a v).read? x = m.read? x := by
  simp [Memory.read?_write, h]

/-- The addresses a write lists are the old ones and its own. -/
theorem Memory.fst_of_mem_write (m : Memory) (a : Nat) (v : Byte) (c : Host.Cell) (h : c ∈ m.write a v) :
    c.1 = a ∨ ∃ c' ∈ m, c'.1 = c.1 := by
  induction m with
  | nil => simp [Memory.write] at h; exact .inl (by simp [h])
  | cons d m ih =>
    obtain ⟨k, b⟩ := d
    simp only [Memory.write] at h
    split at h
    · rcases List.mem_cons.1 h with rfl | h
      · exact .inl rfl
      · exact .inr ⟨c, h, rfl⟩
    · split at h
      · rcases List.mem_cons.1 h with rfl | h
        · exact .inl rfl
        · exact .inr ⟨c, List.mem_cons_of_mem _ h, rfl⟩
      · rcases List.mem_cons.1 h with rfl | h
        · exact .inr ⟨_, List.mem_cons_self, rfl⟩
        · rcases ih h with h | ⟨c', hc, he⟩
          · exact .inl h
          · exact .inr ⟨c', List.mem_cons_of_mem _ hc, he⟩

/-- Writing one byte keeps the canonical form. -/
theorem Memory.write_wf (m : Memory) (a : Nat) (v : Byte) (hm : m.wf) (ha : a < 2 ^ 64) : (m.write a v).wf := by
  refine ⟨?_, ?_⟩
  · have hs := hm.1
    clear hm
    induction m with
    | nil => simp [Memory.write]
    | cons d m ih =>
      obtain ⟨k, b⟩ := d
      have hc := List.pairwise_cons.1 hs
      simp only [Memory.write]
      split
      · next hlt =>
        refine List.pairwise_cons.2 ⟨?_, hs⟩
        intro c hcm
        rcases List.mem_cons.1 hcm with rfl | hcm
        · exact hlt
        · exact Nat.lt_trans hlt (hc.1 c hcm)
      · split
        · next heq => subst heq; exact List.pairwise_cons.2 ⟨hc.1, hc.2⟩
        · next h1 h2 =>
          refine List.pairwise_cons.2 ⟨?_, ih hc.2⟩
          intro c hcm
          rcases Memory.fst_of_mem_write m a v c hcm with h | ⟨c', hc', he⟩
          · simp only at h ⊢; omega
          · rw [← he]; exact hc.1 c' hc'
  · intro c hcm
    rcases Memory.fst_of_mem_write m a v c hcm with h | ⟨c', hc', he⟩
    · rw [h]; exact ha
    · rw [← he]; exact hm.2 c' hc'

/-- Writing a run of bytes keeps the canonical form. -/
theorem Memory.writeBytes_wf (m : Memory) (a : Word) (bs : List Byte) (hm : m.wf) : (m.writeBytes a bs).wf := by
  induction bs generalizing m a with
  | nil => exact hm
  | cons b bs ih => exact ih _ _ (Memory.write_wf m a.toNat b hm a.isLt)

/-- A run of bytes leaves every address outside it alone. -/
theorem Memory.read?_writeBytes_outside (m : Memory) (a : Word) (bs : List Byte) (x : Nat)
    (h : ∀ i < bs.length, x ≠ (a + BitVec.ofNat 64 i).toNat) : (m.writeBytes a bs).read? x = m.read? x := by
  induction bs generalizing m a with
  | nil => rfl
  | cons b bs ih =>
    have h0 : x ≠ a.toNat := by simpa using h 0 (by simp)
    rw [Memory.writeBytes, ih, Memory.read?_write_ne _ _ _ _ h0]
    intro i hi
    have := h (i + 1) (by simpa using hi)
    rwa [show a + 1 + BitVec.ofNat 64 i = a + BitVec.ofNat 64 (i + 1) by
      rw [BitVec.add_assoc, Nat.add_comm i 1, BitVec.ofNat_add]; rfl]

/-- The bytes of a value: as many as asked for. -/
@[simp] theorem bytesOfWordLE_length (n : Nat) (v : Word) : (bytesOfWordLE n v).length = n := by
  induction n generalizing v with
  | zero => rfl
  | succ n ih => simp [bytesOfWordLE, ih]

@[simp] theorem bytesOfWord_length (e : Endian) (n : Nat) (v : Word) : (bytesOfWord e n v).length = n := by
  cases e <;> simp [bytesOfWord]

/-- Adding an address adds that address and no other. -/
theorem mem_insertAddr (ks : List Nat) (a x : Nat) : x ∈ insertAddr ks a ↔ x = a ∨ x ∈ ks := by
  induction ks with
  | nil => simp [insertAddr]
  | cons k ks ih =>
    simp only [insertAddr]
    split
    · simp
    · split
      · next h => subst h; simp
      · simp only [List.mem_cons, ih]; tauto

/-- Adding an address keeps the addresses strictly rising. -/
theorem insertAddr_rising (ks : List Nat) (a : Nat) (h : ks.Pairwise (· < ·)) :
    (insertAddr ks a).Pairwise (· < ·) := by
  induction ks with
  | nil => simp [insertAddr]
  | cons k ks ih =>
    have hc := List.pairwise_cons.1 h
    simp only [insertAddr]
    split
    · next hlt =>
      refine List.pairwise_cons.2 ⟨fun x hx => ?_, h⟩
      rcases List.mem_cons.1 hx with rfl | hx
      · exact hlt
      · exact Nat.lt_trans hlt (hc.1 x hx)
    · split
      · exact h
      · next h1 h2 =>
        refine List.pairwise_cons.2 ⟨fun x hx => ?_, ih hc.2⟩
        rcases (mem_insertAddr ks a x).1 hx with rfl | hx
        · omega
        · exact hc.1 x hx

/-- Recording a run of bytes keeps the addresses strictly rising. -/
theorem markStored_rising (ks : List Nat) (a : Word) (n : Nat) (h : ks.Pairwise (· < ·)) :
    (markStored ks a n).Pairwise (· < ·) := by
  induction n generalizing ks a with
  | zero => exact h
  | succ n ih => exact ih _ _ (insertAddr_rising ks a.toNat h)

/-- Recording a run of bytes records those bytes and no other. -/
theorem mem_markStored (ks : List Nat) (a : Word) (n : Nat) (x : Nat) :
    x ∈ markStored ks a n ↔ x ∈ ks ∨ ∃ i < n, x = (a + BitVec.ofNat 64 i).toNat := by
  induction n generalizing ks a with
  | zero => simp [markStored]
  | succ n ih =>
    have hs : ∀ i : Nat, a + 1 + BitVec.ofNat 64 i = a + BitVec.ofNat 64 (i + 1) := fun i => by
      rw [BitVec.add_assoc, Nat.add_comm i 1, BitVec.ofNat_add]; rfl
    rw [markStored, ih, mem_insertAddr]
    constructor
    · rintro ((rfl | h) | ⟨i, hi, rfl⟩)
      · exact .inr ⟨0, by omega, by simp⟩
      · exact .inl h
      · exact .inr ⟨i + 1, by omega, by rw [hs]⟩
    · rintro (h | ⟨i, hi, rfl⟩)
      · exact .inl (.inr h)
      · cases i with
        | zero => exact .inl (.inl (by simp))
        | succ i => exact .inr ⟨i, by omega, by rw [hs]⟩

/-- Memory at reset is in canonical form. -/
theorem State.reset_mem_wf : State.reset.mem.wf := by decide

end Sys2Proof.Machine
end

