-- ==== Sys2Proof/Laws/State.lean ====
section
/-! SUPPORT. What each named update of the state does to each field: one lemma per field per update, for `simp`. -/

namespace Sys2Proof.Machine


/-! ## Writing a main register -/

@[simp] theorem State.writeReg_pc (s : State) (r : RegId) (v : Word) : (s.writeReg r v).pc = s.pc := by unfold State.writeReg; split <;> rfl
@[simp] theorem State.writeReg_flags (s : State) (r : RegId) (v : Word) : (s.writeReg r v).flags = s.flags := by unfold State.writeReg; split <;> rfl
@[simp] theorem State.writeReg_mode (s : State) (r : RegId) (v : Word) : (s.writeReg r v).mode = s.mode := by unfold State.writeReg; split <;> rfl
@[simp] theorem State.writeReg_scause (s : State) (r : RegId) (v : Word) : (s.writeReg r v).scause = s.scause := by unfold State.writeReg; split <;> rfl
@[simp] theorem State.writeReg_strap (s : State) (r : RegId) (v : Word) : (s.writeReg r v).strap = s.strap := by unfold State.writeReg; split <;> rfl
@[simp] theorem State.writeReg_sret (s : State) (r : RegId) (v : Word) : (s.writeReg r v).sret = s.sret := by unfold State.writeReg; split <;> rfl
@[simp] theorem State.writeReg_sscratch (s : State) (r : RegId) (v : Word) : (s.writeReg r v).sscratch = s.sscratch := by unfold State.writeReg; split <;> rfl
@[simp] theorem State.writeReg_memmode (s : State) (r : RegId) (v : Word) : (s.writeReg r v).memmode = s.memmode := by unfold State.writeReg; split <;> rfl
@[simp] theorem State.writeReg_memreg (s : State) (r : RegId) (v : Word) : (s.writeReg r v).memreg = s.memreg := by unfold State.writeReg; split <;> rfl
@[simp] theorem State.writeReg_pending (s : State) (r : RegId) (v : Word) : (s.writeReg r v).pending = s.pending := by unfold State.writeReg; split <;> rfl
@[simp] theorem State.writeReg_runState (s : State) (r : RegId) (v : Word) : (s.writeReg r v).runState = s.runState := by unfold State.writeReg; split <;> rfl
@[simp] theorem State.writeReg_mem (s : State) (r : RegId) (v : Word) : (s.writeReg r v).mem = s.mem := by unfold State.writeReg; split <;> rfl
@[simp] theorem State.writeReg_stored (s : State) (r : RegId) (v : Word) : (s.writeReg r v).stored = s.stored := by unfold State.writeReg; split <;> rfl
@[simp] theorem State.writeReg_env (s : State) (r : RegId) (v : Word) : (s.writeReg r v).env = s.env := by unfold State.writeReg; split <;> rfl
@[simp] theorem State.writeReg_cfg (s : State) (r : RegId) (v : Word) : (s.writeReg r v).cfg = s.cfg := by unfold State.writeReg; split <;> rfl

/-! ## Moving to the next instruction -/

@[simp] theorem State.advance_regs (s : State) : (s.advance).regs = s.regs := rfl
@[simp] theorem State.advance_pc (s : State) : (s.advance).pc = s.pc + 2 := rfl
@[simp] theorem State.advance_flags (s : State) : (s.advance).flags = s.flags := rfl
@[simp] theorem State.advance_mode (s : State) : (s.advance).mode = s.mode := rfl
@[simp] theorem State.advance_scause (s : State) : (s.advance).scause = s.scause := rfl
@[simp] theorem State.advance_strap (s : State) : (s.advance).strap = s.strap := rfl
@[simp] theorem State.advance_sret (s : State) : (s.advance).sret = s.sret := rfl
@[simp] theorem State.advance_sscratch (s : State) : (s.advance).sscratch = s.sscratch := rfl
@[simp] theorem State.advance_memmode (s : State) : (s.advance).memmode = s.memmode := rfl
@[simp] theorem State.advance_memreg (s : State) : (s.advance).memreg = s.memreg := rfl
@[simp] theorem State.advance_pending (s : State) : (s.advance).pending = s.pending := rfl
@[simp] theorem State.advance_runState (s : State) : (s.advance).runState = s.runState := rfl
@[simp] theorem State.advance_mem (s : State) : (s.advance).mem = s.mem := rfl
@[simp] theorem State.advance_stored (s : State) : (s.advance).stored = s.stored := rfl
@[simp] theorem State.advance_env (s : State) : (s.advance).env = s.env := rfl
@[simp] theorem State.advance_cfg (s : State) : (s.advance).cfg = s.cfg := rfl

/-! ## Storing bytes -/

@[simp] theorem State.store_regs (s : State) (pa : Word) (n : Nat) (v : Word) : (s.store pa n v).regs = s.regs := rfl
@[simp] theorem State.store_pc (s : State) (pa : Word) (n : Nat) (v : Word) : (s.store pa n v).pc = s.pc := rfl
@[simp] theorem State.store_flags (s : State) (pa : Word) (n : Nat) (v : Word) : (s.store pa n v).flags = s.flags := rfl
@[simp] theorem State.store_mode (s : State) (pa : Word) (n : Nat) (v : Word) : (s.store pa n v).mode = s.mode := rfl
@[simp] theorem State.store_scause (s : State) (pa : Word) (n : Nat) (v : Word) : (s.store pa n v).scause = s.scause := rfl
@[simp] theorem State.store_strap (s : State) (pa : Word) (n : Nat) (v : Word) : (s.store pa n v).strap = s.strap := rfl
@[simp] theorem State.store_sret (s : State) (pa : Word) (n : Nat) (v : Word) : (s.store pa n v).sret = s.sret := rfl
@[simp] theorem State.store_sscratch (s : State) (pa : Word) (n : Nat) (v : Word) : (s.store pa n v).sscratch = s.sscratch := rfl
@[simp] theorem State.store_memmode (s : State) (pa : Word) (n : Nat) (v : Word) : (s.store pa n v).memmode = s.memmode := rfl
@[simp] theorem State.store_memreg (s : State) (pa : Word) (n : Nat) (v : Word) : (s.store pa n v).memreg = s.memreg := rfl
@[simp] theorem State.store_pending (s : State) (pa : Word) (n : Nat) (v : Word) : (s.store pa n v).pending = s.pending := rfl
@[simp] theorem State.store_runState (s : State) (pa : Word) (n : Nat) (v : Word) : (s.store pa n v).runState = s.runState := rfl
@[simp] theorem State.store_mem (s : State) (pa : Word) (n : Nat) (v : Word) : (s.store pa n v).mem = s.mem.writeBytes pa (bytesOfWord s.cfg.dec.endian n v) := rfl
@[simp] theorem State.store_stored (s : State) (pa : Word) (n : Nat) (v : Word) : (s.store pa n v).stored = markStored s.stored pa n := rfl
@[simp] theorem State.store_env (s : State) (pa : Word) (n : Nat) (v : Word) : (s.store pa n v).env = s.env := rfl
@[simp] theorem State.store_cfg (s : State) (pa : Word) (n : Nat) (v : Word) : (s.store pa n v).cfg = s.cfg := rfl

/-! ## Entering a trap -/

@[simp] theorem State.enterTrap_regs (s : State) (c : Cause) (epc : Word) : (s.enterTrap c epc).regs = s.regs := rfl
@[simp] theorem State.enterTrap_pc (s : State) (c : Cause) (epc : Word) : (s.enterTrap c epc).pc = handlerAddress s.cfg.dec s.strap := rfl
@[simp] theorem State.enterTrap_flags (s : State) (c : Cause) (epc : Word) : (s.enterTrap c epc).flags = flagsOnTrapEntry s.flags := rfl
@[simp] theorem State.enterTrap_mode (s : State) (c : Cause) (epc : Word) : (s.enterTrap c epc).mode = .supervisor := rfl
@[simp] theorem State.enterTrap_scause (s : State) (c : Cause) (epc : Word) : (s.enterTrap c epc).scause = scauseEncode s.cfg.dec c := rfl
@[simp] theorem State.enterTrap_strap (s : State) (c : Cause) (epc : Word) : (s.enterTrap c epc).strap = s.strap := rfl
@[simp] theorem State.enterTrap_sret (s : State) (c : Cause) (epc : Word) : (s.enterTrap c epc).sret = sretOf s.cfg.dec c epc := rfl
@[simp] theorem State.enterTrap_sscratch (s : State) (c : Cause) (epc : Word) : (s.enterTrap c epc).sscratch = s.sscratch := rfl
@[simp] theorem State.enterTrap_memmode (s : State) (c : Cause) (epc : Word) : (s.enterTrap c epc).memmode = s.memmode := rfl
@[simp] theorem State.enterTrap_memreg (s : State) (c : Cause) (epc : Word) : (s.enterTrap c epc).memreg = s.memreg := rfl
@[simp] theorem State.enterTrap_pending (s : State) (c : Cause) (epc : Word) : (s.enterTrap c epc).pending = s.pending := rfl
@[simp] theorem State.enterTrap_runState (s : State) (c : Cause) (epc : Word) : (s.enterTrap c epc).runState = s.runState := rfl
@[simp] theorem State.enterTrap_mem (s : State) (c : Cause) (epc : Word) : (s.enterTrap c epc).mem = s.mem := rfl
@[simp] theorem State.enterTrap_stored (s : State) (c : Cause) (epc : Word) : (s.enterTrap c epc).stored = s.stored := rfl
@[simp] theorem State.enterTrap_env (s : State) (c : Cause) (epc : Word) : (s.enterTrap c epc).env = s.env := rfl
@[simp] theorem State.enterTrap_cfg (s : State) (c : Cause) (epc : Word) : (s.enterTrap c epc).cfg = s.cfg := rfl

/-! ## Stopping -/

@[simp] theorem State.stop_regs (s : State) : (s.stop).regs = s.regs := rfl
@[simp] theorem State.stop_pc (s : State) : (s.stop).pc = s.pc := rfl
@[simp] theorem State.stop_flags (s : State) : (s.stop).flags = s.flags := rfl
@[simp] theorem State.stop_mode (s : State) : (s.stop).mode = s.mode := rfl
@[simp] theorem State.stop_scause (s : State) : (s.stop).scause = s.scause := rfl
@[simp] theorem State.stop_strap (s : State) : (s.stop).strap = s.strap := rfl
@[simp] theorem State.stop_sret (s : State) : (s.stop).sret = s.sret := rfl
@[simp] theorem State.stop_sscratch (s : State) : (s.stop).sscratch = s.sscratch := rfl
@[simp] theorem State.stop_memmode (s : State) : (s.stop).memmode = s.memmode := rfl
@[simp] theorem State.stop_memreg (s : State) : (s.stop).memreg = s.memreg := rfl
@[simp] theorem State.stop_pending (s : State) : (s.stop).pending = s.pending := rfl
@[simp] theorem State.stop_runState (s : State) : (s.stop).runState = .stopped := rfl
@[simp] theorem State.stop_mem (s : State) : (s.stop).mem = s.mem := rfl
@[simp] theorem State.stop_stored (s : State) : (s.stop).stored = s.stored := rfl
@[simp] theorem State.stop_env (s : State) : (s.stop).env = s.env := rfl
@[simp] theorem State.stop_cfg (s : State) : (s.stop).cfg = s.cfg := rfl

/-! ## An instruction boundary -/

@[simp] theorem State.atBoundary_regs (s : State) : (s.atBoundary).regs = s.regs := by unfold State.atBoundary; split <;> rfl
@[simp] theorem State.atBoundary_pc (s : State) : (s.atBoundary).pc = s.pc := by unfold State.atBoundary; split <;> rfl
@[simp] theorem State.atBoundary_flags (s : State) : (s.atBoundary).flags = s.flags := by unfold State.atBoundary; split <;> rfl
@[simp] theorem State.atBoundary_mode (s : State) : (s.atBoundary).mode = s.mode := by unfold State.atBoundary; split <;> rfl
@[simp] theorem State.atBoundary_scause (s : State) : (s.atBoundary).scause = s.scause := by unfold State.atBoundary; split <;> rfl
@[simp] theorem State.atBoundary_strap (s : State) : (s.atBoundary).strap = s.strap := by unfold State.atBoundary; split <;> rfl
@[simp] theorem State.atBoundary_sret (s : State) : (s.atBoundary).sret = s.sret := by unfold State.atBoundary; split <;> rfl
@[simp] theorem State.atBoundary_sscratch (s : State) : (s.atBoundary).sscratch = s.sscratch := by unfold State.atBoundary; split <;> rfl
@[simp] theorem State.atBoundary_memmode (s : State) : (s.atBoundary).memmode = s.memmode := by unfold State.atBoundary; split <;> rfl
@[simp] theorem State.atBoundary_memreg (s : State) : (s.atBoundary).memreg = s.memreg := by unfold State.atBoundary; split <;> rfl
@[simp] theorem State.atBoundary_runState (s : State) : (s.atBoundary).runState = s.runState := by unfold State.atBoundary; split <;> rfl
@[simp] theorem State.atBoundary_mem (s : State) : (s.atBoundary).mem = s.mem := by unfold State.atBoundary; split <;> rfl
@[simp] theorem State.atBoundary_stored (s : State) : (s.atBoundary).stored = s.stored := by unfold State.atBoundary; split <;> rfl
@[simp] theorem State.atBoundary_cfg (s : State) : (s.atBoundary).cfg = s.cfg := by unfold State.atBoundary; split <;> rfl

/-! ## Writing an HGP register -/

@[simp] theorem State.setHgp_pc (s : State) (k : Hgp) (v : Word) : (s.setHgp k v).pc = s.pc := State.writeReg_pc s _ v
@[simp] theorem State.setHgp_flags (s : State) (k : Hgp) (v : Word) : (s.setHgp k v).flags = s.flags := State.writeReg_flags s _ v
@[simp] theorem State.setHgp_mode (s : State) (k : Hgp) (v : Word) : (s.setHgp k v).mode = s.mode := State.writeReg_mode s _ v
@[simp] theorem State.setHgp_scause (s : State) (k : Hgp) (v : Word) : (s.setHgp k v).scause = s.scause := State.writeReg_scause s _ v
@[simp] theorem State.setHgp_strap (s : State) (k : Hgp) (v : Word) : (s.setHgp k v).strap = s.strap := State.writeReg_strap s _ v
@[simp] theorem State.setHgp_sret (s : State) (k : Hgp) (v : Word) : (s.setHgp k v).sret = s.sret := State.writeReg_sret s _ v
@[simp] theorem State.setHgp_sscratch (s : State) (k : Hgp) (v : Word) : (s.setHgp k v).sscratch = s.sscratch := State.writeReg_sscratch s _ v
@[simp] theorem State.setHgp_memmode (s : State) (k : Hgp) (v : Word) : (s.setHgp k v).memmode = s.memmode := State.writeReg_memmode s _ v
@[simp] theorem State.setHgp_memreg (s : State) (k : Hgp) (v : Word) : (s.setHgp k v).memreg = s.memreg := State.writeReg_memreg s _ v
@[simp] theorem State.setHgp_pending (s : State) (k : Hgp) (v : Word) : (s.setHgp k v).pending = s.pending := State.writeReg_pending s _ v
@[simp] theorem State.setHgp_runState (s : State) (k : Hgp) (v : Word) : (s.setHgp k v).runState = s.runState := State.writeReg_runState s _ v
@[simp] theorem State.setHgp_mem (s : State) (k : Hgp) (v : Word) : (s.setHgp k v).mem = s.mem := State.writeReg_mem s _ v
@[simp] theorem State.setHgp_stored (s : State) (k : Hgp) (v : Word) : (s.setHgp k v).stored = s.stored := State.writeReg_stored s _ v
@[simp] theorem State.setHgp_env (s : State) (k : Hgp) (v : Word) : (s.setHgp k v).env = s.env := State.writeReg_env s _ v
@[simp] theorem State.setHgp_cfg (s : State) (k : Hgp) (v : Word) : (s.setHgp k v).cfg = s.cfg := State.writeReg_cfg s _ v

/-! ## Placing a parcel -/

@[simp] theorem State.placeParcel_regs (s : State) (w : Parcel) : (s.placeParcel w).regs = s.regs := rfl
@[simp] theorem State.placeParcel_pc (s : State) (w : Parcel) : (s.placeParcel w).pc = s.pc := rfl
@[simp] theorem State.placeParcel_flags (s : State) (w : Parcel) : (s.placeParcel w).flags = s.flags := rfl
@[simp] theorem State.placeParcel_mode (s : State) (w : Parcel) : (s.placeParcel w).mode = s.mode := rfl
@[simp] theorem State.placeParcel_scause (s : State) (w : Parcel) : (s.placeParcel w).scause = s.scause := rfl
@[simp] theorem State.placeParcel_strap (s : State) (w : Parcel) : (s.placeParcel w).strap = s.strap := rfl
@[simp] theorem State.placeParcel_sret (s : State) (w : Parcel) : (s.placeParcel w).sret = s.sret := rfl
@[simp] theorem State.placeParcel_sscratch (s : State) (w : Parcel) : (s.placeParcel w).sscratch = s.sscratch := rfl
@[simp] theorem State.placeParcel_memmode (s : State) (w : Parcel) : (s.placeParcel w).memmode = s.memmode := rfl
@[simp] theorem State.placeParcel_memreg (s : State) (w : Parcel) : (s.placeParcel w).memreg = s.memreg := rfl
@[simp] theorem State.placeParcel_pending (s : State) (w : Parcel) : (s.placeParcel w).pending = s.pending := rfl
@[simp] theorem State.placeParcel_runState (s : State) (w : Parcel) : (s.placeParcel w).runState = s.runState := rfl
@[simp] theorem State.placeParcel_mem (s : State) (w : Parcel) : (s.placeParcel w).mem = s.mem.writeBytes s.pc (bytesOfParcel s.cfg.dec.endian w) := rfl
@[simp] theorem State.placeParcel_stored (s : State) (w : Parcel) : (s.placeParcel w).stored = s.stored.filter fun a => a != s.pc.toNat && a != (s.pc + 1).toNat := rfl
@[simp] theorem State.placeParcel_env (s : State) (w : Parcel) : (s.placeParcel w).env = s.env := rfl
@[simp] theorem State.placeParcel_cfg (s : State) (w : Parcel) : (s.placeParcel w).cfg = s.cfg := rfl

/-! ## The trap bit, and reading registers after an update -/

@[simp] theorem flagsOnTrapEntry_trap (f : Flags) : (flagsOnTrapEntry f).trap = true := rfl

@[simp] theorem State.trapBit_eq (s : State) : s.trapBit = s.flags.trap := rfl

/-- A register holds what was written to it, unless it is register 0 with the trap bit clear. -/
theorem State.readReg_writeReg_same (s : State) (r : RegId) (v : Word) (h : r ≠ 0#5 ∨ s.flags.trap = true) :
    (s.writeReg r v).readReg r = v := by
  by_cases hr : r = 0#5
  · subst hr
    have ht : s.flags.trap = true := h.resolve_left (· rfl)
    simp [State.writeReg, State.readReg, State.regStorage, State.trapBit, ht]
  · simp [State.writeReg, State.readReg, State.regStorage, hr]

/-- Writing one register leaves the storage of every other. -/
theorem State.regStorage_writeReg_ne (s : State) (r r' : RegId) (v : Word) (h : r' ≠ r) :
    (s.writeReg r v).regStorage r' = s.regStorage r' := by
  have hn : r.toNat ≠ r'.toNat := fun e => h (BitVec.eq_of_toNat_eq e.symm)
  unfold State.writeReg
  split
  · rfl
  · exact Vector.getElem_set_ne r.isLt r'.isLt hn

/-- Writing one register leaves what every other reads. -/
theorem State.readReg_writeReg_ne (s : State) (r r' : RegId) (v : Word) (h : r' ≠ r) :
    (s.writeReg r v).readReg r' = s.readReg r' := by
  have ht : (s.writeReg r v).trapBit = s.trapBit := by simp
  unfold State.readReg
  rw [ht, State.regStorage_writeReg_ne s r r' v h]

/-- A discarded write of register 0 changes nothing. -/
theorem State.writeReg_zero_discarded (s : State) (v : Word) (h : s.flags.trap = false) : s.writeReg 0#5 v = s := by
  simp [State.writeReg, h]

@[simp] theorem State.readReg_advance (s : State) (r : RegId) : s.advance.readReg r = s.readReg r := rfl

@[simp] theorem State.readReg_store (s : State) (pa : Word) (n : Nat) (v : Word) (r : RegId) :
    (s.store pa n v).readReg r = s.readReg r := rfl

@[simp] theorem State.readReg_stop (s : State) (r : RegId) : s.stop.readReg r = s.readReg r := rfl

/-- Reading a control and status register after it was written (R13). -/
@[simp] theorem State.readCsr_writeCsr_same (s : State) (c : Csr) (v : Word) : (s.writeCsr c v).readCsr c = v := by
  cases c <;> rfl

/-! ## Launching -/

@[simp] theorem State.launch_regs (c : Config) : (State.launch c).regs = Vector.replicate 32 0 := rfl
@[simp] theorem State.launch_pc (c : Config) : (State.launch c).pc = c.resetPc := rfl
@[simp] theorem State.launch_flags (c : Config) : (State.launch c).flags = { trap := false } := rfl
@[simp] theorem State.launch_mode (c : Config) : (State.launch c).mode = .supervisor := rfl
@[simp] theorem State.launch_scause (c : Config) : (State.launch c).scause = 0 := rfl
@[simp] theorem State.launch_strap (c : Config) : (State.launch c).strap = 0 := rfl
@[simp] theorem State.launch_sret (c : Config) : (State.launch c).sret = 0 := rfl
@[simp] theorem State.launch_sscratch (c : Config) : (State.launch c).sscratch = 0 := rfl
@[simp] theorem State.launch_memmode (c : Config) : (State.launch c).memmode = 0 := rfl
@[simp] theorem State.launch_memreg (c : Config) : (State.launch c).memreg = 0 := rfl
@[simp] theorem State.launch_pending (c : Config) : (State.launch c).pending = Pending.none := rfl
@[simp] theorem State.launch_runState (c : Config) : (State.launch c).runState = .running := rfl
@[simp] theorem State.launch_mem (c : Config) : (State.launch c).mem = [] := rfl
@[simp] theorem State.launch_stored (c : Config) : (State.launch c).stored = [] := rfl
@[simp] theorem State.launch_env (c : Config) : (State.launch c).env = [] := rfl
@[simp] theorem State.launch_cfg (c : Config) : (State.launch c).cfg = c := rfl

end Sys2Proof.Machine
end

