-- ==== Sys2Proof/Laws/Ops.lean ====
section
/-! SUPPORT. What each shared operation can do, said once: if it answers, then these cases. Proofs cite these and do not
unfold the operations. -/

namespace Sys2Proof.Machine

/-! ## Parameters of one value -/

@[simp] theorem Xlen.bits_eq (x : Xlen) : x.bits = 64 := rfl

@[simp] theorem numberedFromBit0_eq (b : Bit0) (w : Parcel) : numberedFromBit0 b w = w := rfl

@[simp] theorem translate_eq (t : Translation) (va : Word) (k : AccessKind) : translate t va k = va := rfl

@[simp] theorem ccdAccess_eq (v : CcdValues) (k : AccessKind) (a : Word) :
    ccdAccess v k a = .unspecified (.deviceAccess k a) := rfl

@[simp] theorem trapDisabled_eq (p : NoStrap) (s : State) : trapDisabled p s = .fault (.trapWhileDisabled s.stop) := rfl

@[simp] theorem unassignedOutcome_eq (u : Unassigned) (r : DecodeReject) :
    unassignedOutcome u r = .fault (.unassignedEncoding r) := rfl

theorem decode_eq (d : Decisions) (w : Parcel) : decode d w = decodeNumbered d w := rfl

/-! ## The shared operations -/

/-- A load that answers passed its checks, and answers the bytes it found (R66). -/
theorem memRead_ok {s : State} {a : Word} {n : Nat} {v : Word} (h : memRead s a n = .ok v) :
    accessAbort s.cfg a n .read = none ∧ v = wordOfBytes s.cfg.dec.endian (s.mem.readBytes a n) := by
  unfold memRead at h
  split at h
  · cases h
  · next hn => exact ⟨hn, by injection h with h; exact h.symm⟩

/-- A load that stops has met one of its checks (R66). -/
theorem memRead_error {s : State} {a : Word} {n : Nat} {e : Abort} (h : memRead s a n = .error e) :
    accessAbort s.cfg a n .read = some e := by
  unfold memRead at h
  split at h
  · next hn => rw [hn]; injection h with h; rw [h]
  · cases h

/-- A store that answers passed its checks, and changes the stored bytes alone (R67). -/
theorem memWrite_ok {s t : State} {a : Word} {n : Nat} {v : Word} (h : memWrite s a n v = .ok t) :
    accessAbort s.cfg a n .write = none ∧ t = s.store a n v := by
  unfold memWrite at h
  split at h
  · cases h
  · next hn => exact ⟨hn, by injection h with h; exact h.symm⟩

/-- A store that stops has met one of its checks (R67). -/
theorem memWrite_error {s : State} {a : Word} {n : Nat} {v : Word} {e : Abort} (h : memWrite s a n v = .error e) :
    accessAbort s.cfg a n .write = some e := by
  unfold memWrite at h
  split at h
  · next hn => rw [hn]; injection h with h; rw [h]
  · cases h

/-- A fetch that answers passed its checks, and answers the parcel of two bytes that hold values (R68). -/
theorem fetch_ok {s : State} {a : Word} {w : Parcel} (h : fetch s a = .ok w) :
    accessAbort s.cfg a 2 .execute = none ∧ fetchRefused s a = false ∧
      ∃ b0 b1, s.mem.read? a.toNat = some b0 ∧ s.mem.read? (a + 1).toNat = some b1 ∧
        w = parcelOfBytes s.cfg.dec.endian b0 b1 := by
  unfold fetch at h
  split at h
  · cases h
  · next hn =>
    split at h
    · cases h
    · next hr =>
      refine ⟨hn, by simpa using hr, ?_⟩
      unfold parcelAt at h
      split at h
      · next b0 b1 h0 h1 =>
        injection h with h
        exact ⟨b0, b1, h0, h1, h.symm⟩
      · cases h

/-- Taking a trap has a next state only with trapping on, and then it is the trap entered (R210). -/
theorem trapEntry_next {c : Cause} {epc : Word} {s t : State} (h : trapEntry c epc s = .next t) :
    s.strapOn = true ∧ t = s.enterTrap c epc := by
  unfold trapEntry at h
  split at h
  · next hs => exact ⟨hs, by injection h with h; exact h.symm⟩
  · cases h

/-- An abandoned access has a next state only through a trap (R12, R200). -/
theorem abandon_next {a : Abort} {s t : State} (h : abandon a s = .next t) :
    ∃ c, a = .trap c ∧ s.strapOn = true ∧ t = s.enterTrap (.internal c) s.pc := by
  cases a with
  | trap c => exact ⟨c, rfl, trapEntry_next h⟩
  | unspecified f => cases h

/-- A division that answers is outside the corners, or its parameter gives the corners a free value (R142). -/
theorem divide_some {p : Decisions} {n d q : Word} (h : divide p n d = some q) :
    (divisionCorner p.divMode n d = false ∧ q = quotient p.divMode n d) ∨
      (divisionCorner p.divMode n d = true ∧ p.div0 = .freeValue ∧ q = Config.divCornerValue n d) := by
  unfold divide at h
  split at h
  · next hc =>
    split at h
    · cases h
    · next hd => exact .inr ⟨hc, hd, by injection h with h; exact h.symm⟩
  · next hc => exact .inl ⟨by simpa using hc, by injection h with h; exact h.symm⟩

/-- Everything an instruction with a next state can have done: written an HGP register (`cgc.not` under one reading, two),
stored bytes, or entered a trap before writing anything (R120, R130, R150). -/
theorem exec_next {i : Instr} {s t : State} (h : exec i s = .next t) :
    (∃ k v, t = (s.setHgp k v).advance) ∨
    (∃ k v k' v', t = ((s.setHgp k v).setHgp k' v').advance) ∨
    (∃ a n v, accessAbort s.cfg a n .write = none ∧ t = (s.store a n v).advance) ∨
    (∃ c, s.strapOn = true ∧ t = s.enterTrap (.internal c) s.pc) := by
  have reg : ∀ {k v} {u : State}, Host.Outcome.next (φ := Fault) (ρ := Refusal) ((s.setHgp k v).advance) = .next u →
      u = (s.setHgp k v).advance := fun e => by injection e with e; exact e.symm
  cases i
  case ld rd off ra =>
    simp only [exec, execLd] at h
    split at h
    · exact .inl ⟨_, _, reg h⟩
    · obtain ⟨c, -, hs, ht⟩ := abandon_next h; exact .inr (.inr (.inr ⟨c, hs, ht⟩))
  case lo rd off ra =>
    simp only [exec, execLo] at h
    split at h
    · exact .inl ⟨_, _, reg h⟩
    · obtain ⟨c, -, hs, ht⟩ := abandon_next h; exact .inr (.inr (.inr ⟨c, hs, ht⟩))
  case sd rs off ra =>
    simp only [exec, execSd] at h
    split at h
    · next u hu =>
      obtain ⟨ha, rfl⟩ := memWrite_ok hu
      injection h with h
      exact .inr (.inr (.inl ⟨_, _, _, ha, h.symm⟩))
    · obtain ⟨c, -, hs, ht⟩ := abandon_next h; exact .inr (.inr (.inr ⟨c, hs, ht⟩))
  case so rs off ra =>
    simp only [exec, execSo] at h
    split at h
    · next u hu =>
      obtain ⟨ha, rfl⟩ := memWrite_ok hu
      injection h with h
      exact .inr (.inr (.inl ⟨_, _, _, ha, h.symm⟩))
    · obtain ⟨c, -, hs, ht⟩ := abandon_next h; exact .inr (.inr (.inr ⟨c, hs, ht⟩))
  case divR r0 r1 =>
    simp only [exec, execDivR] at h
    split at h
    · exact .inl ⟨_, _, reg h⟩
    · cases h
  case divI rd imm =>
    simp only [exec, execDivI] at h
    split at h
    · exact .inl ⟨_, _, reg h⟩
    · cases h
  case notR r0 r1 =>
    simp only [exec, execNotR] at h
    split at h
    · exact .inl ⟨_, _, reg h⟩
    · injection h with h; exact .inr (.inl ⟨_, _, _, _, h.symm⟩)
    · exact .inl ⟨_, _, reg h⟩
  all_goals exact .inl ⟨_, _, reg h⟩

/-- Everything the fetch, decode and execution of one instruction can do (R200 steps 2 to 4). -/
theorem runInstruction_next {s t : State} (h : runInstruction s = .next t) :
    (∃ w i, fetch s s.pc = .ok w ∧ decode s.cfg.dec w = .ok i ∧ exec i s = .next t) ∨
    (∃ c, fetch s s.pc = .error (.trap c) ∧ s.strapOn = true ∧ t = s.enterTrap (.internal c) s.pc) := by
  unfold runInstruction at h
  split at h
  · next w hw =>
    unfold executeParcel at h
    split at h
    · next i hi => exact .inl ⟨w, i, hw, hi, h⟩
    · cases h
  · next a ha =>
    obtain ⟨c, rfl, hs, ht⟩ := abandon_next h
    exact .inr ⟨c, ha, hs, ht⟩

/-- Everything a step can do: take an external cause at the boundary, or run one instruction (R200). -/
theorem step_next {s t : State} (h : step s = .next t) :
    s.runState = .running ∧
    ((∃ c, s.interruptTaken = some c ∧ s.strapOn = true ∧
        t = State.enterTrap { s.atBoundary with pending := s.atBoundary.pending.clear c } (.external c) s.pc) ∨
     (s.interruptTaken = none ∧ runInstruction s.atBoundary = .next t)) := by
  unfold step cycle at h
  split at h
  · cases h
  · next hr =>
    refine ⟨hr, ?_⟩
    split at h
    · next c hc =>
      obtain ⟨hs, ht⟩ := trapEntry_next h
      refine .inl ⟨c, hc, by simpa [State.strapOn] using hs, by simpa using ht⟩
    · next hc => exact .inr ⟨hc, h⟩

/-- The boundary changes the pending bits and what is still to come, and nothing else (R205). -/
theorem atBoundary_eq (s : State) :
    s.atBoundary = { s with pending := s.atBoundary.pending, env := s.atBoundary.env } := by
  unfold State.atBoundary; split <;> rfl

/-- Storing keeps the canonical form. -/
theorem State.store_mem_wf (s : State) (a : Word) (n : Nat) (v : Word) (h : s.mem.wf) : (s.store a n v).mem.wf :=
  Memory.writeBytes_wf _ _ _ h

/-- Placing a parcel keeps the canonical form. -/
theorem State.placeParcel_mem_wf (s : State) (w : Parcel) (h : s.mem.wf) : (s.placeParcel w).mem.wf :=
  Memory.writeBytes_wf _ _ _ h

end Sys2Proof.Machine
end

