-- ==== Sys2Proof/Laws/PerInstr.lean ====
section
/-! SUPPORT. Statements about every instruction, one lemma per constructor. -/

namespace Sys2Proof.Laws.SizeCode

/-- Every encoded instruction carries the size code of 16 bits in its bits 1:0, whatever that code is (R90). -/
def Statement (i : Instr) : Prop := ∀ d : Decisions, fieldSize (encode d i) = d.sizeCode16

theorem relIAcc (d : Decisions) (op : BitVec 2) (reg : Hgp) (off : BitVec 6) (ra : Idr) :
    fieldSize (encodeRelIAcc d op reg off ra) = d.sizeCode16 := by
  unfold fieldSize encodeRelIAcc; exact BitVec.extractLsb'_append_eq_right

theorem arAcc (d : Decisions) (op : BitVec 4) (r0 r1 : Hgp) : fieldSize (encodeArAcc d op r0 r1) = d.sizeCode16 := by
  unfold fieldSize encodeArAcc; exact BitVec.extractLsb'_append_eq_right

theorem aiAcc (d : Decisions) (op : BitVec 3) (rd : Hgp) (imm : BitVec 6) :
    fieldSize (encodeAiAcc d op rd imm) = d.sizeCode16 := by
  unfold fieldSize encodeAiAcc; exact BitVec.extractLsb'_append_eq_right

theorem ld (rd : Hgp) (off : BitVec 6) (ra : Idr) : Statement (.ld rd off ra) := fun d => relIAcc d _ rd off ra
theorem lo (rd : Hgp) (off : BitVec 6) (ra : Idr) : Statement (.lo rd off ra) := fun d => relIAcc d _ rd off ra
theorem sd (rs : Hgp) (off : BitVec 6) (ra : Idr) : Statement (.sd rs off ra) := fun d => relIAcc d _ rs off ra
theorem so (rs : Hgp) (off : BitVec 6) (ra : Idr) : Statement (.so rs off ra) := fun d => relIAcc d _ rs off ra
theorem add (r0 r1 : Hgp) : Statement (.add r0 r1) := fun d => arAcc d _ r0 r1
theorem sub (r0 r1 : Hgp) : Statement (.sub r0 r1) := fun d => arAcc d _ r0 r1
theorem mulR (r0 r1 : Hgp) : Statement (.mulR r0 r1) := fun d => arAcc d _ r0 r1
theorem divR (r0 r1 : Hgp) : Statement (.divR r0 r1) := fun d => arAcc d _ r0 r1
theorem notR (r0 r1 : Hgp) : Statement (.notR r0 r1) := fun d => arAcc d _ r0 r1
theorem srlR (r0 r1 : Hgp) : Statement (.srlR r0 r1) := fun d => arAcc d _ r0 r1
theorem srrR (r0 r1 : Hgp) : Statement (.srrR r0 r1) := fun d => arAcc d _ r0 r1
theorem xorR (r0 r1 : Hgp) : Statement (.xorR r0 r1) := fun d => arAcc d _ r0 r1
theorem andR (r0 r1 : Hgp) : Statement (.andR r0 r1) := fun d => arAcc d _ r0 r1
theorem orR (r0 r1 : Hgp) : Statement (.orR r0 r1) := fun d => arAcc d _ r0 r1
theorem addiu (rd : Hgp) (imm : BitVec 6) : Statement (.addiu rd imm) := fun d => aiAcc d _ rd imm
theorem addi (rd : Hgp) (imm : BitVec 6) : Statement (.addi rd imm) := fun d => aiAcc d _ rd imm
theorem mulI (rd : Hgp) (imm : BitVec 6) : Statement (.mulI rd imm) := fun d => aiAcc d _ rd imm
theorem divI (rd : Hgp) (imm : BitVec 6) : Statement (.divI rd imm) := fun d => aiAcc d _ rd imm
theorem srlI (rd : Hgp) (imm : BitVec 6) : Statement (.srlI rd imm) := fun d => aiAcc d _ rd imm
theorem srrI (rd : Hgp) (imm : BitVec 6) : Statement (.srrI rd imm) := fun d => aiAcc d _ rd imm
theorem xorI (rd : Hgp) (imm : BitVec 6) : Statement (.xorI rd imm) := fun d => aiAcc d _ rd imm
theorem orI (rd : Hgp) (imm : BitVec 6) : Statement (.orI rd imm) := fun d => aiAcc d _ rd imm

end Sys2Proof.Laws.SizeCode
end

