-- ==== Sys2Proof/Tests/Slice0.lean ====
section
/-! SUPPORT. Tests. Parcels, operands and expected results are those of the vectors of 95_test_vectors.md and of the
examples of the instruction rules; each test names its source. The witnesses at the end show that the premises of each
statement of Obligations.lean are met together, at the ends of the ranges they name. -/

namespace Sys2Proof.Machine

/-! ## The decoder, on parcels written out from the field tables (R93 to R95, R101 to R103) -/

/-- TM1: offset 6, hgp3, sp. -/
theorem test_decode_ld : decode Decisions.decided 0b00011_011_01_00_01_00 = .ok (.ld 3 6 1) := by decide
/-- TM7. -/
theorem test_decode_lo : decode Decisions.decided 0b00100_001_01_01_01_00 = .ok (.lo 1 8 1) := by decide
/-- TM14. -/
theorem test_decode_sd : decode Decisions.decided 0b00001_000_01_10_01_00 = .ok (.sd 0 2 1) := by decide
/-- TM20. -/
theorem test_decode_so : decode Decisions.decided 0b11111_111_11_11_01_00 = .ok (.so 7 62 3) := by decide
/-- TR1. -/
theorem test_decode_add : decode Decisions.decided 0b010_001_00_0001_00_00 = .ok (.add 1 2) := by decide
/-- TR4. -/
theorem test_decode_sub : decode Decisions.decided 0b010_001_00_0010_00_00 = .ok (.sub 1 2) := by decide
/-- TR7. -/
theorem test_decode_mulR : decode Decisions.decided 0b000_001_00_0011_00_00 = .ok (.mulR 1 0) := by decide
/-- TR11. -/
theorem test_decode_divR : decode Decisions.decided 0b010_001_00_0100_00_00 = .ok (.divR 1 2) := by decide
/-- TR21. -/
theorem test_decode_notR : decode Decisions.decided 0b010_001_00_0101_00_00 = .ok (.notR 1 2) := by decide
/-- TR23. -/
theorem test_decode_srlR : decode Decisions.decided 0b010_001_00_0110_00_00 = .ok (.srlR 1 2) := by decide
/-- TR28. -/
theorem test_decode_srrR : decode Decisions.decided 0b010_001_00_0111_00_00 = .ok (.srrR 1 2) := by decide
/-- TR32. -/
theorem test_decode_xorR : decode Decisions.decided 0b010_001_00_1000_00_00 = .ok (.xorR 1 2) := by decide
/-- TR34. -/
theorem test_decode_andR : decode Decisions.decided 0b010_001_00_1001_00_00 = .ok (.andR 1 2) := by decide
/-- TR37. -/
theorem test_decode_orR : decode Decisions.decided 0b010_001_00_1010_00_00 = .ok (.orR 1 2) := by decide
/-- TI1. -/
theorem test_decode_addiu : decode Decisions.decided 0b111111_000_000_10_00 = .ok (.addiu 0 63) := by decide
/-- TI6: the immediate -32 is 0b100000. -/
theorem test_decode_addi : decode Decisions.decided 0b100000_100_001_10_00 = .ok (.addi 4 32) := by decide
/-- TI9. -/
theorem test_decode_mulI : decode Decisions.decided 0b000011_000_010_10_00 = .ok (.mulI 0 3) := by decide
/-- TI15: the immediate -2 is 0b111110. -/
theorem test_decode_divI : decode Decisions.decided 0b111110_000_011_10_00 = .ok (.divI 0 62) := by decide
/-- TI21. -/
theorem test_decode_srlI : decode Decisions.decided 0b001010_000_100_10_00 = .ok (.srlI 0 10) := by decide
/-- TI25. -/
theorem test_decode_srrI : decode Decisions.decided 0b000100_000_101_10_00 = .ok (.srrI 0 4) := by decide
/-- TI30. -/
theorem test_decode_xorI : decode Decisions.decided 0b010101_000_110_10_00 = .ok (.xorI 0 21) := by decide
/-- TI32. -/
theorem test_decode_orI : decode Decisions.decided 0b011111_000_111_10_00 = .ok (.orI 0 31) := by decide

/-- Section 2 of 95_test_vectors.md: the all-zero and the all-ones parcel, a Ctrl parcel, and set reserved bits (TD14). -/
theorem test_decode_unassigned :
    decode Decisions.decided 0x0000 = .error .araccOpcode ∧ decode Decisions.decided 0xFFFF = .error (.longerEncoding (some .moreThan64)) ∧
    decode Decisions.decided 0xFFFC = .error .ctrlFormat ∧ decode Decisions.decided 0xFFA0 = .error .araccReservedBits := by
  decide

/-- R62: the byte at the lower address holds bits 7:0. -/
theorem test_decode_bytes :
    decodeBytes Decisions.decided [0x44, 0x1B, 0x99] = .ok (.ld 3 6 1, [0x99]) ∧
    decodeBytes Decisions.decided [0x44] = .error .truncated ∧ decodeTableWord 16 0x1B44 = some (.ld 3 6 1) := by decide

/-- R90: size codes 0b01 and 0b10. -/
theorem test_decode_longer : decode Decisions.decided 0x0001 = .error (.longerEncoding (some .bits32)) ∧
    decode Decisions.decided 0x0002 = .error (.longerEncoding (some .bits64)) := by decide

/-! ## Well-formedness: an odd RelIAcc offset has no encoding (R97) -/

theorem test_wellFormed_refuses_odd_ld : Instr.wellFormed (.ld 0 1 0) = false := by decide
theorem test_wellFormed_refuses_odd_lo : Instr.wellFormed (.lo 0 7 0) = false := by decide
theorem test_wellFormed_refuses_odd_sd : Instr.wellFormed (.sd 0 33 0) = false := by decide
theorem test_wellFormed_refuses_odd_so : Instr.wellFormed (.so 0 63 0) = false := by decide

/-! ## One step of each instruction -/

/-- The start state of 95_test_vectors.md sections 3 to 6: `pc` = 0x100, trapping on, handler 0x400; a parcel at `pc` and
main registers as given. -/
def start (w : Nat) (rs : List (RegId × Word)) : State :=
  rs.foldl (fun s p => s.writeReg p.1 p.2)
    (({ State.reset with pc := 0x100, strap := 0x8000000000000400 } : State).withFetchWord 16 w)

/-- `start` with the bytes of an 8-byte value at an address. -/
def startMem (w : Nat) (rs : List (RegId × Word)) (a v : Word) : State :=
  let s := start w rs
  { s with mem := s.mem.writeBytes a (bytesOfWordLE 8 v) }

/-- What a function of the next state is, where there is one. -/
def seen {α : Type} (o : Host.Outcome State Fault Refusal) (f : State → α) : Option α :=
  match o with
  | .next t => some (f t)
  | .fault _ => none
  | .refused _ => none

/-- `hgp<k>` and `pc` after a step. -/
def hgpPc (k : Hgp) (t : State) : Word × Word := (regHgp t k, t.pc)

/-- Whether a step stops on an undefined division. -/
def stopsOnDivision (o : Host.Outcome State Fault Refusal) : Bool :=
  match o with
  | .fault .divisionUndefined => true
  | _ => false

/-- TM6: the address wraps to 0. -/
theorem test_ld_wraps : seen (step (startMem 0x0844 [(5, 0xFFFFFFFFFFFFFFFE)] 0 0x2211)) (hgpPc 0) = some (0x2211, 0x102) := by decide
/-- TM2. -/
theorem test_ld_zero_extends : seen (step (startMem 0x1B44 [(5, 0x8000), (11, -1)] 0x8000 0xFFFF000000000000)) (hgpPc 3) = some (0xFFFF, 0x102) := by decide
/-- TM9. -/
theorem test_lo : seen (step (startMem 0x4594 [(6, 0x20000)] 0x20010 0x0807060504030201)) (hgpPc 5) = some (0x0807060504030201, 0x102) := by decide
/-- TM8. -/
theorem test_lo_misaligned : seen (step (start 0x0A54 [(5, 0x8000), (10, 0x55)])) (fun t => (t.scause, t.sret, t.pc, t.flags.trap, regHgp t 2)) =
    some (0x2, 0x100, 0x400, true, 0x55) := by decide
/-- TM14: the low 16 bits, no other byte. -/
theorem test_sd : seen (step (start 0x0864 [(5, 0x8000), (8, 0x1122334455667788)]))
    (fun t => (t.mem.read? 0x8001, t.mem.read? 0x8002, t.mem.read? 0x8003, t.mem.read? 0x8004)) =
    some (none, some 0x88, some 0x77, none) := by decide
/-- TM15. -/
theorem test_sd_misaligned : seen (step (start 0x0864 [(5, 0x8001)])) (fun t => (t.scause, t.sret, t.pc, t.mem.read? 0x8003)) =
    some (0x4, 0x100, 0x400, none) := by decide
/-- TM20. -/
theorem test_so : seen (step (start 0xFFF4 [(7, 0xA002), (15, 0x0102030405060708)]))
    (fun t => (t.mem.read? 0xA03F, t.mem.read? 0xA040, t.mem.read? 0xA047, t.mem.read? 0xA048)) =
    some (none, some 0x08, some 0x01, none) := by decide
/-- TM18 and R124: a store that touches the last device halfword stops. -/
theorem test_so_device : (match step (start 0x0074 [(5, 0x3FF8)]) with | .fault f => f == .deviceAccess .write 0x3FF8 | _ => false) = true := by decide
/-- TR1. -/
theorem test_add_wraps : seen (step (start 0x4410 [(9, 1), (10, 0xFFFFFFFFFFFFFFFF)])) (hgpPc 2) = some (0, 0x102) := by decide
/-- TR3. -/
theorem test_add_same_register : seen (step (start 0x6C10 [(11, 0x21)])) (hgpPc 3) = some (0x42, 0x102) := by decide
/-- TR5. -/
theorem test_sub_order : seen (step (start 0x4420 [(9, 3), (10, 0xA)])) (hgpPc 2) = some (7, 0x102) := by decide
/-- TR4. -/
theorem test_sub_borrows : seen (step (start 0x4420 [(9, 1), (10, 0)])) (hgpPc 2) = some (0xFFFFFFFFFFFFFFFF, 0x102) := by decide
/-- TR10. -/
theorem test_mulR : seen (step (start 0x0430 [(9, 0x100000001), (8, 0x100000001)])) (hgpPc 0) = some (0x200000001, 0x102) := by decide
/-- TR9. -/
theorem test_mulR_signed : seen (step (start 0x0430 [(9, 0xFFFFFFFFFFFFFFFF), (8, 0xFFFFFFFFFFFFFFFF)])) (hgpPc 0) = some (1, 0x102) := by decide
/-- TR12. -/
theorem test_divR_toward_zero : seen (step (start 0x4440 [(9, 2), (10, 0xFFFFFFFFFFFFFFF9)])) (hgpPc 2) = some (0xFFFFFFFFFFFFFFFD, 0x102) := by decide
/-- TR16. -/
theorem test_divR_corner : stopsOnDivision (step (start 0x4440 [(9, 0xFFFFFFFFFFFFFFFF), (10, 0x8000000000000000)])) = true := by decide
/-- TR21. -/
theorem test_notR : seen (step (start 0x4450 [(9, 0xFF), (10, 0x0F)])) (hgpPc 2) = some (0xFFFFFFFFFFFFFF00, 0x102) := by decide
/-- TR21. -/
theorem test_notR_keeps_r0 : seen (step (start 0x4450 [(9, 0xFF), (10, 0x0F)])) (hgpPc 1) = some (0xFF, 0x102) := by decide
/-- TR24. -/
theorem test_srlR : seen (step (start 0x4460 [(9, 4), (10, 0xF000000000000001)])) (hgpPc 2) = some (0x10, 0x102) := by decide
/-- TR27. -/
theorem test_srlR_amount : seen (step (start 0x4460 [(9, 0x41), (10, 1)])) (hgpPc 2) = some (2, 0x102) := by decide
/-- TR30. -/
theorem test_srrR : seen (step (start 0x4470 [(9, 1), (10, 0xFFFFFFFFFFFFFFFF)])) (hgpPc 2) = some (0x7FFFFFFFFFFFFFFF, 0x102) := by decide
/-- TR31. -/
theorem test_srrR_amount : seen (step (start 0x4470 [(9, 0x104), (10, 0xF0)])) (hgpPc 2) = some (0xF, 0x102) := by decide
/-- TR32. -/
theorem test_xorR : seen (step (start 0x4480 [(9, 0x0F0F), (10, 0x00FF)])) (hgpPc 2) = some (0x0FF0, 0x102) := by decide
/-- TR33. -/
theorem test_xorR_same_register : seen (step (start 0x0080 [(8, 0xDEADBEEF)])) (hgpPc 0) = some (0, 0x102) := by decide
/-- TR34. -/
theorem test_andR : seen (step (start 0x4490 [(9, 0x0F0F), (10, 0x00FF)])) (hgpPc 2) = some (0x000F, 0x102) := by decide
/-- TR36. -/
theorem test_andR_same_register : seen (step (start 0xD890 [(14, 0x55)])) (hgpPc 6) = some (0x55, 0x102) := by decide
/-- TR37. -/
theorem test_orR : seen (step (start 0x44A0 [(9, 0x0F0F), (10, 0x00FF)])) (hgpPc 2) = some (0x0FFF, 0x102) := by decide
/-- TR38. -/
theorem test_orR_same_register : seen (step (start 0xFCA0 [(15, 0x77)])) (hgpPc 7) = some (0x77, 0x102) := by decide
/-- TI1: 0b111111 is 63. -/
theorem test_addiu : seen (step (start 0xFC08 [(8, 1)])) (hgpPc 0) = some (0x40, 0x102) := by decide
/-- TI2. -/
theorem test_addiu_wraps : seen (step (start 0x0408 [(8, 0xFFFFFFFFFFFFFFFF)])) (hgpPc 0) = some (0, 0x102) := by decide
/-- TI6: 0b100000 is -32. -/
theorem test_addi : seen (step (start 0x8218 [(12, 0x20)])) (hgpPc 4) = some (0, 0x102) := by decide
/-- TI7. -/
theorem test_addi_overflows : seen (step (start 0x7E18 [(12, 0x7FFFFFFFFFFFFFFF)])) (hgpPc 4) = some (0x800000000000001E, 0x102) := by decide
/-- TI10. -/
theorem test_mulI : seen (step (start 0xF828 [(8, 5)])) (hgpPc 0) = some (0xFFFFFFFFFFFFFFF6, 0x102) := by decide
/-- TI13. -/
theorem test_mulI_wraps : seen (step (start 0x7C28 [(8, 0x0842108421084211)])) (hgpPc 0) = some (0xF, 0x102) := by decide
/-- TI15. -/
theorem test_divI : seen (step (start 0xF838 [(8, 7)])) (hgpPc 0) = some (0xFFFFFFFFFFFFFFFD, 0x102) := by decide
/-- TI17. -/
theorem test_divI_by_zero : stopsOnDivision (step (start 0x0038 [(8, 5)])) = true := by decide
/-- TI22. -/
theorem test_srlI : seen (step (start 0xFC48 [(8, 3)])) (hgpPc 0) = some (0x8000000000000000, 0x102) := by decide
/-- TI24. -/
theorem test_srlI_unsigned : seen (step (start 0x8048 [(8, 0xFFFFFFFF00000001)])) (hgpPc 0) = some (0x100000000, 0x102) := by decide
/-- TI27. -/
theorem test_srrI : seen (step (start 0x0458 [(8, 0xFFFFFFFFFFFFFFFF)])) (hgpPc 0) = some (0x7FFFFFFFFFFFFFFF, 0x102) := by decide
/-- TI28. -/
theorem test_srrI_unsigned : seen (step (start 0x8058 [(8, 0x123456789ABCDEF0)])) (hgpPc 0) = some (0x12345678, 0x102) := by decide
/-- TI29. -/
theorem test_xorI : seen (step (start 0xFC68 [(8, 0xFF)])) (hgpPc 0) = some (0xFFFFFFFFFFFFFF00, 0x102) := by decide
/-- TI30. -/
theorem test_xorI_positive : seen (step (start 0x5468 [(8, 0x3F)])) (hgpPc 0) = some (0x2A, 0x102) := by decide
/-- TI34. -/
theorem test_orI : seen (step (start 0x8078 [(8, 0xF)])) (hgpPc 0) = some (0xFFFFFFFFFFFFFFEF, 0x102) := by decide
/-- TI32. -/
theorem test_orI_positive : seen (step (start 0x7C78 [(8, 0x100)])) (hgpPc 0) = some (0x11F, 0x102) := by decide

/-! ## Traps and interrupts -/

/-- TT4: an odd `pc` traps before anything is fetched. -/
theorem test_misaligned_fetch : seen (step { start 0x0008 [] with pc := 0x20000001 })
    (fun t => (t.scause, t.sret, t.pc, t.mode)) = some (0x0, 0x20000001, 0x400, .supervisor) := by decide

/-- TT2: the pending timer, taken; its bit is cleared and the instruction has not started. -/
theorem test_timer : seen (step { start 0x0408 [] with
      pending := ⟨false, true, true⟩, env := [⟨Pending.none, some .timer⟩] })
    (fun t => (t.scause, t.sret, t.pc, t.pending, regHgp t 0)) =
    some (0x3, 0x100, 0x400, ⟨false, false, true⟩, 0) := by decide

/-- R212: a trap with `strap.on` clear stops the core, whose next step is none. -/
theorem test_trap_while_disabled :
    (match step { start 0x0864 [(5, 0x8001)] with strap := 0x400 } with
      | .fault (.trapWhileDisabled t) => t.runState == .stopped && t.scause == 0 &&
          (match step t with | .fault .coreStopped => true | _ => false)
      | _ => false) = true := by decide

/-- R79: a byte this run has stored is not fetched. -/
theorem test_modified_code :
    (match Sys2Proof.core.run 2 (start 0x0864 [(5, 0x100), (8, 0x0008)]) with
      | .fault .fetchOfModifiedCode => true | _ => false) = true := by decide

/-! ## Witnesses: the premises of each statement, met together -/

/-- `start` on a platform that has only the 8 bytes from 0x8000, with a value in `sp`. -/
def limited (sp : Word) : State :=
  { start 0x0008 [(5, sp)] with cfg := { Config.atReset with platform := [⟨0x8000, 8, true, true, true⟩] } }

/-- The premises the four RelIAcc statements share, for a parcel of match value `m` and an effective address. -/
abbrev RelReady (s : State) (w m : Parcel) (ea : Word) : Prop :=
  w &&& 0x003F = m ∧ s.cfg.dec = Decisions.decided ∧ s.cfg.nCores = 1 ∧
  ea = regIdr s (w.extractLsb' 6 2) + (w.extractLsb' 11 5 ++ 0b0#1).zeroExtend 64

/-- `ea` is in the device regions. -/
abbrev devAt (ea : Word) : Prop := 0x1000 ≤ ea.toNat ∧ ea.toNat ≤ 0x3FFF

/-- An access of `n` bytes at `ea` falls under the misaligned clause. -/
abbrev MisAt (ea : Word) (n : Nat) : Prop := ea.toNat % n ≠ 0

/-- An access falls under the invalid clause. -/
abbrev BadAt (s : State) (ea : Word) (n : Nat) (k : AccessKind) : Prop :=
  ea.toNat % n = 0 ∧ validPhys s.cfg ea n k = false

/-- An access falls under the device clause. -/
abbrev CcdAt (s : State) (ea : Word) (n : Nat) (k : AccessKind) : Prop :=
  ea.toNat % n = 0 ∧ validPhys s.cfg ea n k = true ∧ devAt ea

/-- An access falls under the ordinary clause. -/
abbrev MemAt (s : State) (ea : Word) (n : Nat) (k : AccessKind) : Prop :=
  ea.toNat % n = 0 ∧ validPhys s.cfg ea n k = true ∧ ¬ devAt ea

theorem witness_DecodeOfEncodeIsTheInstruction : Instr.wellFormed (.so 7 62 3) = true := by decide

theorem witness_EncodeOfDecodeIsTheParcel :
    Decisions.decided.araccRsvd = .unassigned ∧ decode Decisions.decided 0xFFF4 = .ok (.so 7 62 3) := by decide

theorem witness_EncodingFieldSelectsTheFormat :
    ((0xFFF4 : Parcel).extractLsb' 0 2 = Decisions.decided.sizeCode16 ∧ (0xFFF4 : Parcel).extractLsb' 2 2 = 0b01#2) ∧
    ((0x0010 : Parcel).extractLsb' 0 2 = Decisions.decided.sizeCode16 ∧ (0x0010 : Parcel).extractLsb' 2 2 = 0b00#2 ∧
      decode Decisions.decided 0x0010 = .ok (.add 0 0)) ∧
    ((0x0008 : Parcel).extractLsb' 0 2 = Decisions.decided.sizeCode16 ∧ (0x0008 : Parcel).extractLsb' 2 2 = 0b10#2) ∧
    ((0xFFFC : Parcel).extractLsb' 0 2 = Decisions.decided.sizeCode16 ∧ (0xFFFC : Parcel).extractLsb' 2 2 = 0b11#2) := by
  decide

theorem witness_ArAccFieldsAndOpcodes : (0 = 0b0000 ∨ (0b1011 ≤ 0 ∧ 0 ≤ 0b1111)) ∧
    (11 = 0b0000 ∨ (0b1011 ≤ 11 ∧ 11 ≤ 0b1111)) ∧ (15 = 0b0000 ∨ (0b1011 ≤ 15 ∧ 15 ≤ 0b1111)) := by decide

theorem witness_RegisterReadsTheLastWrite : (31 : RegId) ≠ 0#5 ∧ (1 : RegId) ≠ 0#5 ∧ (1 : RegId) ≠ 31 := by decide

theorem witness_RegisterZeroIsScratchInTrapsOnly :
    ({ State.reset with flags := ⟨true⟩ } : State).flags.trap = true ∧ State.reset.flags.trap = false := by decide

theorem witness_CsrListingReadsBackAnyWrite : Csr.sret ≠ Csr.scause ∧ Csr.ofAddress? 0x010014 = some .memreg ∧
    Csr.ofAddress? 0x010013 = none := by decide

theorem witness_LoadChecksThenLittleEndianSum :
    ((limited 0).cfg.dec = Decisions.decided ∧ (limited 0).cfg.nCores = 1) ∧
    (MisAt 0x8001 2 ∧ MisAt 0x8007 8 ∧ MisAt 0xFFFFFFFFFFFFFFFF 2) ∧
    (BadAt (limited 0) 0x7FFE 2 .read ∧ BadAt (limited 0) 0x8008 2 .read ∧ BadAt (limited 0) 0x0FF8 8 .read) ∧
    (CcdAt (limited 0) 0x1000 2 .read ∧ CcdAt (limited 0) 0x3FFE 2 .read ∧ CcdAt (limited 0) 0x3FF8 8 .read) ∧
    (MemAt (limited 0) 0x8006 2 .read ∧ MemAt (limited 0) 0x8000 8 .read ∧ MemAt State.reset 0x0FF8 8 .read ∧
      MemAt State.reset 0x4000 2 .read ∧ MemAt State.reset 0xFFFFFFFFFFFFFFF8 8 .read) := by decide

theorem witness_StoreChecksThenLittleEndianBytes :
    (limited 0).cfg.dec = Decisions.decided ∧
    (MisAt 0x8001 2 ∧ MisAt 0x8007 8 ∧ MisAt 0xFFFFFFFFFFFFFFFF 2) ∧
    (BadAt (limited 0) 0x7FFE 2 .write ∧ BadAt (limited 0) 0x8008 2 .write ∧ BadAt (limited 0) 0x0FF8 8 .write) ∧
    (CcdAt (limited 0) 0x1000 2 .write ∧ CcdAt (limited 0) 0x3FFE 2 .write ∧ CcdAt (limited 0) 0x3FF8 8 .write) ∧
    (MemAt (limited 0) 0x8006 2 .write ∧ MemAt (limited 0) 0x8000 8 .write ∧ MemAt State.reset 0x0FF8 8 .write ∧
      MemAt State.reset 0x4000 2 .write ∧ MemAt State.reset 0xFFFFFFFFFFFFFFF8 8 .write) := by decide

theorem witness_FetchChecksThenLittleEndianParcel :
    ((limited 0).cfg.dec = Decisions.decided ∧ (limited 0).cfg.nCores = 1) ∧
    (0x8001 : Word).toNat % 2 = 1 ∧
    (BadAt (limited 0) 0x7FFE 2 .execute ∧ BadAt (limited 0) 0x8008 2 .execute) ∧
    (CcdAt (limited 0) 0x1000 2 .execute ∧ CcdAt (limited 0) 0x3FFE 2 .execute) ∧
    (MemAt State.reset 0x0FFE 2 .execute ∧ 0x0FFF ∈ ({ State.reset with stored := [0x0FFF] } : State).stored) ∧
    (MemAt State.reset 0x4000 2 .execute ∧ 0x4000 ∉ State.reset.stored ∧ 0x4001 ∉ State.reset.stored ∧
      State.reset.mem.read? 0x4000 = none) ∧
    (MemAt (start 0x0008 []) 0x100 2 .execute ∧ 0x100 ∉ (start 0x0008 []).stored ∧ 0x101 ∉ (start 0x0008 []).stored ∧
      (start 0x0008 []).mem.read? 0x100 = some 0x08 ∧ (start 0x0008 []).mem.read? 0x101 = some 0x00) := by decide

theorem witness_MixedWidthsAgree :
    State.reset.cfg.dec = Decisions.decided ∧ State.reset.cfg.nCores = 1 ∧
    (MemAt State.reset 0x0FF8 8 .write ∧ validPhys State.reset.cfg (0x0FF8 + BitVec.ofNat 64 (2 * 3)) 2 .read = true) ∧
    (MemAt State.reset 0x4000 8 .read ∧ validPhys State.reset.cfg 0x4000 2 .write = true ∧
      validPhys State.reset.cfg (0x4000 + 2) 2 .write = true) := by decide

theorem witness_StoredBytesAreNotFetched :
    State.reset.cfg.dec = Decisions.decided ∧ State.reset.cfg.nCores = 1 ∧
    (0x4000 : Word) = 0x4000 + BitVec.ofNat 64 0 ∧ (0x4006 : Word) + 1 = 0x4000 + BitVec.ofNat 64 7 ∧
    MemAt State.reset 0x4000 2 .execute ∧ MemAt State.reset 0x4006 2 .execute := by decide

theorem witness_DeviceRegionsExistEverywhere :
    (0x1000 ≤ 0x1000 ∧ 0x1000 ≤ 0x3FFF) ∧ (0x1000 ≤ 0x3FFF ∧ 0x3FFF ≤ 0x3FFF) := by decide

theorem witness_LoadHalfwordRule :
    (RelReady (limited 0x8001) 0x0844 0x0004 0x8003 ∧ MisAt 0x8003 2) ∧
    (RelReady (limited 0x8006) 0x0844 0x0004 0x8008 ∧ BadAt (limited 0x8006) 0x8008 2 .read) ∧
    (RelReady (limited 0x0FFE) 0x0844 0x0004 0x1000 ∧ CcdAt (limited 0x0FFE) 0x1000 2 .read) ∧
    (RelReady (limited 0x3FFC) 0x0844 0x0004 0x3FFE ∧ CcdAt (limited 0x3FFC) 0x3FFE 2 .read) ∧
    (RelReady (limited 0x8004) 0x0844 0x0004 0x8006 ∧ MemAt (limited 0x8004) 0x8006 2 .read) ∧
    (RelReady (start 8 [(5, 0x0FFC)]) 0x0844 0x0004 0x0FFE ∧ MemAt (start 8 [(5, 0x0FFC)]) 0x0FFE 2 .read) ∧
    (RelReady (start 8 [(5, -2)]) 0x0844 0x0004 0 ∧ MemAt (start 8 [(5, -2)]) 0 2 .read) := by decide

theorem witness_LoadOctabyteRule :
    (RelReady (limited 0x8000) 0x0A54 0x0014 0x8002 ∧ MisAt 0x8002 8) ∧
    (RelReady (limited 0x8000) 0x2154 0x0014 0x8008 ∧ BadAt (limited 0x8000) 0x8008 8 .read) ∧
    (RelReady (limited 0x0FF8) 0x2154 0x0014 0x1000 ∧ CcdAt (limited 0x0FF8) 0x1000 8 .read) ∧
    (RelReady (limited 0x3FF0) 0x2154 0x0014 0x3FF8 ∧ CcdAt (limited 0x3FF0) 0x3FF8 8 .read) ∧
    (RelReady (limited 0x7FF8) 0x2154 0x0014 0x8000 ∧ MemAt (limited 0x7FF8) 0x8000 8 .read) ∧
    (RelReady (start 8 [(5, 0x0FF0)]) 0x2154 0x0014 0x0FF8 ∧ MemAt (start 8 [(5, 0x0FF0)]) 0x0FF8 8 .read) ∧
    (RelReady (start 8 [(5, -16)]) 0x2154 0x0014 (-8) ∧ MemAt (start 8 [(5, -16)]) (-8) 8 .read) := by decide

theorem witness_StoreHalfwordRule :
    (RelReady (limited 0x8001) 0x0864 0x0024 0x8003 ∧ MisAt 0x8003 2) ∧
    (RelReady (limited 0x8006) 0x0864 0x0024 0x8008 ∧ BadAt (limited 0x8006) 0x8008 2 .write) ∧
    (RelReady (limited 0x0FFE) 0x0864 0x0024 0x1000 ∧ CcdAt (limited 0x0FFE) 0x1000 2 .write) ∧
    (RelReady (limited 0x3FFC) 0x0864 0x0024 0x3FFE ∧ CcdAt (limited 0x3FFC) 0x3FFE 2 .write) ∧
    (RelReady (limited 0x8004) 0x0864 0x0024 0x8006 ∧ MemAt (limited 0x8004) 0x8006 2 .write) ∧
    (RelReady (start 8 [(5, 0x3FFE)]) 0x0864 0x0024 0x4000 ∧ MemAt (start 8 [(5, 0x3FFE)]) 0x4000 2 .write) ∧
    (RelReady (start 8 [(5, -2)]) 0x0864 0x0024 0 ∧ MemAt (start 8 [(5, -2)]) 0 2 .write) := by decide

theorem witness_StoreOctabyteRule :
    (RelReady (limited 0x8000) 0x0874 0x0034 0x8002 ∧ MisAt 0x8002 8) ∧
    (RelReady (limited 0x8000) 0x2074 0x0034 0x8008 ∧ BadAt (limited 0x8000) 0x8008 8 .write) ∧
    (RelReady (limited 0x0FF8) 0x2074 0x0034 0x1000 ∧ CcdAt (limited 0x0FF8) 0x1000 8 .write) ∧
    (RelReady (limited 0x3FF0) 0x2074 0x0034 0x3FF8 ∧ CcdAt (limited 0x3FF0) 0x3FF8 8 .write) ∧
    (RelReady (limited 0x7FF8) 0x2074 0x0034 0x8000 ∧ MemAt (limited 0x7FF8) 0x8000 8 .write) ∧
    (RelReady (start 8 [(5, 0x3FF8)]) 0x2074 0x0034 0x4000 ∧ MemAt (start 8 [(5, 0x3FF8)]) 0x4000 8 .write) ∧
    (RelReady (start 8 [(5, -16)]) 0x2074 0x0034 (-8) ∧ MemAt (start 8 [(5, -16)]) (-8) 8 .write) := by decide

theorem witness_ArAccWritesItsSecondRegisterAlone :
    ((0xFFA0 : Parcel).extractLsb' 0 2 = 0b00#2 ∧ (0xFFA0 : Parcel).extractLsb' 2 2 = 0b00#2 ∧
      (0xFFA0 : Parcel).extractLsb' 8 2 ≠ 0b00#2) ∧
    ((0xFCA0 : Parcel).extractLsb' 0 2 = 0b00#2 ∧ (0xFCA0 : Parcel).extractLsb' 2 2 = 0b00#2 ∧
      decode Decisions.decided 0xFCA0 = .ok (.orR 7 7)) ∧
    State.reset.cfg.dec = Decisions.decided := by decide

theorem witness_RegisterLogicIsBitByBit :
    ((1 : Hgp) = (0x4480 : Parcel).extractLsb' 10 3 ∧ (2 : Hgp) = (0x4480 : Parcel).extractLsb' 13 3 ∧
      (0x4480 : Parcel) &&& 0x03FF = 0x0080) ∧
    ((1 : Hgp) = (0x4490 : Parcel).extractLsb' 10 3 ∧ (2 : Hgp) = (0x4490 : Parcel).extractLsb' 13 3 ∧
      (0x4490 : Parcel) &&& 0x03FF = 0x0090) ∧
    ((7 : Hgp) = (0xFCA0 : Parcel).extractLsb' 10 3 ∧ (7 : Hgp) = (0xFCA0 : Parcel).extractLsb' 13 3 ∧
      (0xFCA0 : Parcel) &&& 0x03FF = 0x00A0) ∧
    State.reset.cfg.dec = Decisions.decided := by decide

/-- The premise `Decided` alone: RegisterArithmeticKeepsTheLow64Bits, NotWritesTheComplementOfR0,
ImmediateArithmeticKeepsTheLow64Bits and ImmediateShiftsByTheUnsignedImmediate have no other. -/
theorem witness_RegisterArithmeticKeepsTheLow64Bits : State.reset.cfg.dec = Decisions.decided := by decide
theorem witness_NotWritesTheComplementOfR0 : (start 0x4450 [(9, 0xFF)]).cfg.dec = Decisions.decided := by decide
theorem witness_ImmediateArithmeticKeepsTheLow64Bits : (start 0x8218 [(12, 32)]).cfg.dec = Decisions.decided := by decide
theorem witness_ImmediateShiftsByTheUnsignedImmediate : (start 0xFC48 [(8, 3)]).cfg.dec = Decisions.decided := by decide

theorem witness_RegisterShiftsByTheLowSixBits :
    State.reset.cfg.dec = Decisions.decided ∧ 63 = (regHgp (start 0x4460 [(9, 127)]) 1).toNat % 64 ∧
    0 = (regHgp (start 0x4460 [(9, 64)]) 1).toNat % 64 := by decide

theorem witness_RegisterDivisionRoundsTowardZero :
    (start 0x4440 []).cfg.dec = Decisions.decided ∧
    ((-7 : Word) = regHgp (start 0x4440 [(9, 2), (10, -7)]) 2 ∧ (2 : Word) = regHgp (start 0x4440 [(9, 2), (10, -7)]) 1 ∧
      (2 : Word) ≠ 0#64 ∧ ¬ ((-7 : Word).toInt = -2 ^ 63 ∧ (2 : Word).toInt = -1)) ∧
    ((0x8000000000000001 : Word) = regHgp (start 0x4440 [(9, -1), (10, 0x8000000000000001)]) 2 ∧
      ¬ ((0x8000000000000001 : Word).toInt = -2 ^ 63 ∧ (-1 : Word).toInt = -1)) ∧
    (0#64 = regHgp (start 0x4440 [(10, 5)]) 1) ∧
    ((0x8000000000000000 : Word).toInt = -2 ^ 63 ∧ (-1 : Word).toInt = -1) := by decide

theorem witness_AiAccWritesItsRegisterAlone :
    (0xFC78 : Parcel).extractLsb' 2 2 = 0b10#2 ∧ decode Decisions.decided 0xFC78 = .ok (.orI 0 63) ∧
    State.reset.cfg.dec = Decisions.decided := by decide

theorem witness_ImmediateLogicIsBitByBit :
    ((0 : Hgp) = (0xFC68 : Parcel).extractLsb' 7 3 ∧ (63 : BitVec 6) = (0xFC68 : Parcel).extractLsb' 10 6 ∧
      (0xFC68 : Parcel) &&& 0x007F = 0x0068) ∧
    ((3 : Hgp) = (0x01F8 : Parcel).extractLsb' 7 3 ∧ (0 : BitVec 6) = (0x01F8 : Parcel).extractLsb' 10 6 ∧
      (0x01F8 : Parcel) &&& 0x007F = 0x0078) ∧
    State.reset.cfg.dec = Decisions.decided := by decide

theorem witness_ImmediateDivisionRoundsTowardZero :
    State.reset.cfg.dec = Decisions.decided ∧
    ((7 : Word) = regHgp (start 0xF838 [(8, 7)]) 0 ∧ (62 : BitVec 6) ≠ 0#6 ∧
      ¬ ((7 : Word).toInt = -2 ^ 63 ∧ (62 : BitVec 6).toInt = -1)) ∧
    ((0x8000000000000000 : Word).toInt = -2 ^ 63 ∧ (63 : BitVec 6).toInt = -1) ∧
    ((0x8000000000000000 : Word) = regHgp (start 0x0438 [(8, 0x8000000000000000)]) 0 ∧ (1 : BitVec 6) ≠ 0#6 ∧
      ¬ ((0x8000000000000000 : Word).toInt = -2 ^ 63 ∧ (1 : BitVec 6).toInt = -1)) := by decide

/-- A machine whose `DIV0` parameter is `freeValue` (log 12). -/
def freeDivision : State :=
  { State.reset with cfg := { Config.atReset with dec := { Decisions.decided with div0 := .freeValue } } }

theorem witness_FreeQuotientsNeverStop : freeDivision.cfg.dec.div0 = .freeValue := by decide

theorem witness_DivisionReadingsAgreeInTheSafeDomain :
    (0x7FFFFFFFFFFFFFFF : Word).getLsbD 63 = false ∧ (1 : Word).getLsbD 63 = false ∧ (1 : Word) ≠ 0#64 := by decide

theorem witness_ShiftAndNotReadingsAgreeInTheSafeDomain :
    (63 : Word).toNat < 64 ∧ (63 < 64 ∧ ((0x7FFFFFFFFFFFFFFF : Word).getLsbD 63 = false ∨ 63 = 0)) ∧
    (0 < 64 ∧ ((0x8000000000000000 : Word).getLsbD 63 = false ∨ 0 = 0)) := by decide

theorem witness_AddressAndLoadReadingsAgreeInTheSafeDomain :
    (30 : BitVec 6).getLsbD 5 = false ∧
    ((0x7FFF : Word).getLsbD 15 = false ∧ (Decisions.decided.ldExt ≠ .keep ∨ (0xFFFF : Word).toNat < 2 ^ 16)) ∧
    (0xBFFFFFFFFFFFFFFF : Word).getLsbD 62 = false := by decide

theorem witness_TrapEntrySavesCauseAndPc :
    (start 8 []).cfg.dec = Decisions.decided ∧ (start 8 []).strap.getLsbD 63 = true := by decide

theorem witness_TrapWhileDisabledStopsTheCore : State.reset.strap.getLsbD 63 = false := by decide

theorem witness_NestedTrapOverwritesTheFirst : (start 8 []).strapOn = true := by decide

theorem witness_AccessesRaiseTheirOwnCausesOnly :
    accessTrap (limited 0).cfg 0x8001 2 .execute = some .misalignedInstr ∧
    accessTrap (limited 0).cfg 0x8008 2 .execute = some .invalidInstr ∧
    accessTrap (limited 0).cfg 0x8004 8 .read = some .misalignedRead ∧
    accessTrap (limited 0).cfg 0x8008 8 .read = some .invalidRead ∧
    accessTrap (limited 0).cfg 0x9001 2 .write = some .misalignedWrite ∧
    accessTrap (limited 0).cfg 0x9000 2 .write = some .invalidWrite := by decide

/-- A boundary at which the timer arrives and is taken. -/
def timerTaken : State := { start 8 [] with env := [⟨⟨false, true, false⟩, some .timer⟩] }

theorem witness_PendingInterruptIsTakenAtTheBoundary :
    timerTaken.cfg.dec = Decisions.decided ∧ timerTaken.runState = .running ∧
    timerTaken.env = ⟨⟨false, true, false⟩, some .timer⟩ :: [] ∧
    (timerTaken.pending.get .timer = true ∨ (⟨false, true, false⟩ : Pending).get .timer = true) ∧
    timerTaken.strap.getLsbD 63 = true := by decide

/-- A boundary at which the timer arrives and an MSI, which is not pending, would be taken. -/
def msiNotPending : State := { start 8 [] with env := [⟨⟨false, true, false⟩, some .msi⟩] }

theorem witness_NothingPendingNothingTaken :
    ((start 8 []).runState = .running ∧ (start 8 []).env = []) ∧
    (msiNotPending.runState = .running ∧ msiNotPending.env = ⟨⟨false, true, false⟩, some .msi⟩ :: [] ∧
      msiNotPending.pending.get .msi = false ∧ (⟨false, true, false⟩ : Pending).get .msi = false) := by decide

theorem witness_StepRunsTheDecodedInstruction :
    (start 0x1B44 []).cfg.dec = Decisions.decided ∧ (start 0x1B44 []).runState = .running ∧
    (start 0x1B44 []).interruptTaken = none ∧ FetchReady (start 0x1B44 []) 0x44 0x1B ∧
    decode Decisions.decided (0x1B#8 ++ 0x44#8) = .ok (.ld 3 6 1) := by
  unfold FetchReady inDevice; decide

theorem witness_UnassignedParcelStopsTheStep :
    (start 0xFFFC []).cfg.dec = Decisions.decided ∧ (start 0xFFFC []).runState = .running ∧
    (start 0xFFFC []).interruptTaken = none ∧ FetchReady (start 0xFFFC []) 0xFC 0xFF ∧
    decode Decisions.decided (0xFF#8 ++ 0xFC#8) = .error .ctrlFormat := by
  unfold FetchReady inDevice; decide

/-- A core at an odd handler address. -/
def oddHandler : State := { start 8 [] with strap := 0x8000000000000401, pc := 0x401 }

theorem witness_OddHandlerAddressTrapsForEver :
    oddHandler.cfg.dec = Decisions.decided ∧ oddHandler.runState = .running ∧ oddHandler.strap.getLsbD 63 = true ∧
    oddHandler.strap.getLsbD 0 = true ∧ oddHandler.pc.toNat = oddHandler.strap.toNat % 2 ^ 63 := by decide

/-- A state with a stored byte listed, in a trap's own mode, meets the invariant, and its step has a next state. -/
theorem witness_StepKeepsTheInvariant :
    ({ start 0x0864 [(5, 0x8000)] with flags := ⟨true⟩, stored := [0x101] } : State).Inv ∧
    ∃ t, step { start 0x0008 [] with flags := ⟨true⟩ } = .next t ∧ ({ start 0x0008 [] with flags := ⟨true⟩ } : State).Inv :=
  ⟨{ memory := by decide, storedRising := by decide, storedListed := by decide, running := by decide,
     trapMode := by decide },
   ⟨_, rfl, { memory := by decide, storedRising := by decide, storedListed := by decide, running := by decide,
              trapMode := by decide }⟩⟩

theorem witness_StepKeepsThePcEven : (start 0x0864 [(5, 0x8000)]).pc.getLsbD 0 = false ∧
    (start 0x0864 [(5, 0x8000)]).strap.getLsbD 0 = false ∧
    (seen (step (start 0x0864 [(5, 0x8000)])) fun t => t.pc).isSome := by decide

/-- StepNeverTouchesTheseFields, StepAdvancesOrTrapsPrecisely, InertRegistersHaveNoEffect and ModeHasNoEffectOnAStep have
a step with a next state as their premise: one that advances and one that enters a trap. -/
theorem witness_StepAdvancesOrTrapsPrecisely :
    (∃ t, step (start 0x0008 []) = .next t) ∧ (∃ t, step { start 0x0008 [] with pc := 0x101 } = .next t) :=
  ⟨⟨_, rfl⟩, ⟨_, rfl⟩⟩

theorem witness_StepNeverTouchesTheseFields : ∃ t, step (start 0x0864 [(5, 0x8000)]) = .next t := ⟨_, rfl⟩
theorem witness_InertRegistersHaveNoEffect : ∃ t, step (start 0x0864 [(5, 0x8001)]) = .next t := ⟨_, rfl⟩
theorem witness_ModeHasNoEffectOnAStep : ∃ t, step { start 0x0864 [(5, 0x8001)] with mode := .user } = .next t := ⟨_, rfl⟩

theorem witness_SizeFieldAnnouncesTheLength :
    ((0x0001 : Parcel).extractLsb' 0 2 ≠ Decisions.decided.sizeCode16 ∧
      (0x0001 : Parcel).extractLsb' 0 2 = Decisions.decided.sizeCode32) ∧
    ((0x0002 : Parcel).extractLsb' 0 2 = Decisions.decided.sizeCode64 ∧
      Decisions.decided.sizeCode64 ≠ Decisions.decided.sizeCode32) ∧
    ((0xFFFF : Parcel).extractLsb' 0 2 = Decisions.decided.sizeCodeLonger ∧
      Decisions.decided.sizeCodeLonger ≠ Decisions.decided.sizeCode32 ∧
      Decisions.decided.sizeCodeLonger ≠ Decisions.decided.sizeCode64) ∧
    ((0x0001 : Parcel).toNat % 4 = 1 ∧ (0x0002 : Parcel).toNat % 4 = 2 ∧ (0xFFFF : Parcel).toNat % 4 = 3) := by decide

/-- A machine of two cores, with an address in `sp`. -/
def twoCores (sp : Word) : State := { start 8 [(5, sp)] with cfg := { Config.atReset with nCores := 2 } }

theorem witness_MultiCoreLoadsAndFetchesStop :
    (twoCores 0x3FFE).cfg.dec = Decisions.decided ∧ (twoCores 0x3FFE).cfg.nCores ≠ 1 ∧
    (MemAt (twoCores 0x3FFE) 0x4000 2 .read ∧ MemAt (twoCores 0x3FFE) 0x4000 8 .read ∧
      MemAt (twoCores 0x3FFE) 0x4000 2 .execute) ∧
    (0x4000 : Word) = regIdr (twoCores 0x3FFE) 1 + (2 : BitVec 6).zeroExtend 64 ∧
    (MemAt (twoCores 0x0FF8) 0x0FF8 8 .read ∧
      (0x0FF8 : Word) = regIdr (twoCores 0x0FF8) 1 + (0 : BitVec 6).zeroExtend 64) := by decide

theorem witness_ScauseEncodingIsInjective :
    scauseEncode Decisions.decided (.external .extDev) = scauseEncode Decisions.decided (.external .extDev) := by decide

end Sys2Proof.Machine
end

section
/-! PROOFS. The registers of a state: the main registers (R23) and the control and status registers (R35). -/

namespace Sys2Proof.Machine

/-! ## Main registers -/

/-- Register 0 shows `r0_scratch` only inside a trap; outside it hides that storage behind zero (R23). -/
theorem State.readReg_zero (s : State) :
    s.readReg 0#5 = if s.flags.trap = true then s.r0Scratch else 0#64 := by
  cases ht : s.flags.trap with
  | true =>
    have visible : s.readReg 0#5 = s.regStorage 0#5 := by simp [State.readReg, ht]
    rw [visible, if_pos rfl]
    rfl
  | false => simp [State.readReg, ht]

/-- Settles O10: what the written register and every other one read, and the two readings of register 0. -/
theorem registerReadsTheLastWrite : Obligations.RegisterReadsTheLastWrite := by
  intro s r q v
  refine ⟨fun hr => ?written, fun _ hqr => ?other, s.readReg_zero⟩
  case written => exact s.readReg_writeReg_same r v (.inl hr)
  case other => exact s.readReg_writeReg_ne r q v hqr

/-! ## Control and status registers -/

/-- The decoder of addresses inverts the listing's column "Address" (R35, R36). -/
@[simp] theorem Csr.ofAddress?_address (c : Csr) : Csr.ofAddress? c.address = some c := by
  cases c <;> rfl

/-- An address that names a CSR is the one listed for it (R36). -/
theorem Csr.eq_address_of_ofAddress? {a : CsrAddr} {c : Csr} (h : Csr.ofAddress? a = some c) : a = c.address := by
  unfold Csr.ofAddress? at h
  split_ifs at h <;> cases h <;> assumption

theorem Csr.ofAddress?_eq_some_iff (a : CsrAddr) (c : Csr) : Csr.ofAddress? a = some c ↔ a = c.address := by
  constructor
  · exact Csr.eq_address_of_ofAddress?
  · rintro rfl
    exact c.ofAddress?_address

/-- Writing one control and status register leaves what every other reads. -/
theorem State.readCsr_writeCsr_ne (s : State) (c e : Csr) (v : Word) (h : e ≠ c) :
    (s.writeCsr c v).readCsr e = s.readCsr e := by
  have reads : (s.writeCsr c v).readCsr e = if e = c then v else s.readCsr e := by
    cases c <;> cases e <;> rfl
  rw [reads, if_neg h]

/-- Settles O12: the listing's columns hold by definition; addresses are decoded both ways, and a write is read back at
its own register alone. -/
theorem csrListingReadsBackAnyWrite : Obligations.CsrListingReadsBackAnyWrite := by
  refine ⟨?addresses, Csr.ofAddress?_eq_some_iff, ?columns, fun s c e v => ⟨?same, ?other⟩⟩
  case addresses => exact ⟨rfl, rfl, rfl, rfl, rfl, rfl⟩
  case columns => exact fun _ => ⟨rfl, rfl⟩
  case same => exact s.readCsr_writeCsr_same c v
  case other => exact s.readCsr_writeCsr_ne c e v

end Sys2Proof.Machine
end

section
/-! PROOFS. The decoder by format (R91, R92), and the fields of a parcel given as a sum of powers of 2 (R93 to R95). -/

namespace Sys2Proof.Machine

/-! ## What a parcel of each format decodes to -/

section
variable {d : Decisions} {w : Parcel} (size : fieldSize w = d.sizeCode16)
include size

theorem decode_relIAcc {op : BitVec 2} {reg : Hgp} {off : BitVec 6} {ra : Idr} (encoding : fieldEncoding w = 0b01#2)
    (opcode : fieldRelOpcode w = op) (hgp : fieldRelHgp w = reg) (offset : fieldOffset w = off) (idr : fieldIdr w = ra) :
    decode d w = .ok (relIAccOf op reg off ra) := by
  rw [decode_eq, decodeNumbered, if_neg (not_not.2 size), encoding, ← opcode, ← hgp, ← offset, ← idr]
  rfl

theorem decode_arAcc {op : BitVec 4} {r0 r1 : Hgp} (encoding : fieldEncoding w = 0b00#2)
    (reserved : reservedBitsRefused d (fieldReserved w) = false) (opcode : fieldArOpcode w = op)
    (reg0 : fieldReg0 w = r0) (reg1 : fieldReg1 w = r1) : decode d w = arAccOf op r0 r1 := by
  rw [decode_eq, decodeNumbered, if_neg (not_not.2 size), encoding, ← opcode, ← reg0, ← reg1]
  exact if_neg (Bool.eq_false_iff.1 reserved)

theorem decode_arAcc_reserved (encoding : fieldEncoding w = 0b00#2)
    (reserved : reservedBitsRefused d (fieldReserved w) = true) : decode d w = .error .araccReservedBits := by
  rw [decode_eq, decodeNumbered, if_neg (not_not.2 size), encoding]
  exact if_pos reserved

theorem decode_aiAcc {op : BitVec 3} {rd : Hgp} {imm : BitVec 6} (encoding : fieldEncoding w = 0b10#2)
    (opcode : fieldAiOpcode w = op) (hgp : fieldAiHgp w = rd) (immediate : fieldImm w = imm) :
    decode d w = .ok (aiAccOf op rd imm) := by
  rw [decode_eq, decodeNumbered, if_neg (not_not.2 size), encoding, ← opcode, ← hgp, ← immediate]
  rfl

theorem decode_ctrl (encoding : fieldEncoding w = 0b11#2) : decode d w = .error .ctrlFormat := by
  rw [decode_eq, decodeNumbered, if_neg (not_not.2 size), encoding]
  rfl

end

/-! ## The format of what an opcode selects -/

@[simp] theorem relIAccOf_format (op : BitVec 2) (reg : Hgp) (off : BitVec 6) (ra : Idr) :
    (relIAccOf op reg off ra).format = .relIAcc := by
  unfold relIAccOf
  split <;> rfl

@[simp] theorem aiAccOf_format (op : BitVec 3) (rd : Hgp) (imm : BitVec 6) : (aiAccOf op rd imm).format = .aiAcc := by
  unfold aiAccOf
  split <;> rfl

theorem arAccOf_format {op : BitVec 4} {r0 r1 : Hgp} {i : Instr} (h : arAccOf op r0 r1 = .ok i) : i.format = .arAcc := by
  unfold arAccOf at h
  split at h <;> cases h <;> rfl

/-- Opcodes 0b0000 and 0b1011 to 0b1111 are not in the table (R102). -/
theorem arAccOf_unassigned {op : BitVec 4} (r0 r1 : Hgp) (h : op.toNat = 0 ∨ 11 ≤ op.toNat) :
    arAccOf op r0 r1 = .error .araccOpcode := by
  unfold arAccOf
  split
  case h_11 => rfl
  all_goals exact absurd h (by decide)

/-- Settles O4: one rule of the decoder per value of bits 3:2; in the ARAcc format the reserved bits may refuse first. -/
theorem encodingFieldSelectsTheFormat : Obligations.EncodingFieldSelectsTheFormat := by
  intro d w size
  refine ⟨fun enc => ?relIAcc, fun enc i hi => ?arAcc, fun enc => ?aiAcc, fun enc => ?ctrl⟩
  case relIAcc => exact ⟨_, decode_relIAcc size enc rfl rfl rfl rfl, relIAccOf_format ..⟩
  case arAcc =>
    cases reserved : reservedBitsRefused d (fieldReserved w) with
    | true => exact absurd (hi.symm.trans (decode_arAcc_reserved size enc reserved)) nofun
    | false => exact arAccOf_format ((decode_arAcc size enc reserved rfl rfl rfl).symm.trans hi)
  case aiAcc => exact ⟨_, decode_aiAcc size enc rfl rfl rfl, aiAccOf_format ..⟩
  case ctrl => exact ⟨_, decode_ctrl size enc⟩

/-! ## Fields of a parcel given as a number -/

/-- A field of a parcel, as division and remainder on the number the parcel holds. -/
theorem extractLsb'_ofNat_parcel {n lo len : Nat} {f : BitVec len} (fits : lo + len ≤ 16)
    (digits : n / 2 ^ lo % 2 ^ len = f.toNat) : (BitVec.ofNat 16 n : Parcel).extractLsb' lo len = f := by
  have top : 2 ^ 16 = 2 ^ lo * 2 ^ (16 - lo) := by rw [← pow_add, Nat.add_sub_cancel' (by omega)]
  have below : 2 ^ len ∣ 2 ^ (16 - lo) := pow_dvd_pow 2 (by omega)
  apply BitVec.eq_of_toNat_eq
  rw [BitVec.extractLsb'_toNat, BitVec.toNat_ofNat, Nat.shiftRight_eq_div_pow, top, Nat.mod_mul_right_div_self,
    Nat.mod_mod_of_dvd _ below, digits]

/-- Offset bits 5:1 above the unencoded bit 0 are twice their value (R97). -/
theorem append_zero_eq_ofNat_mul_two (imm : BitVec 5) : imm ++ 0b0#1 = BitVec.ofNat 6 (imm.toNat * 2) := by
  apply BitVec.eq_of_toNat_eq
  rw [BitVec.toNat_append, BitVec.toNat_ofNat, Nat.shiftLeft_eq]
  simp only [BitVec.toNat_ofNat, Nat.zero_mod, Nat.or_zero]
  omega

/-- A parcel with the RelIAcc fields at their positions, for every opcode at once (R93). -/
theorem decode_relIAcc_sum (d : Decisions) (imm : BitVec 5) (reg : Hgp) (ra : Idr) (op : BitVec 2) :
    decode d (BitVec.ofNat 16 (imm.toNat * 2 ^ 11 + reg.toNat * 2 ^ 8 + ra.toNat * 2 ^ 6 + op.toNat * 2 ^ 4 +
      0b01 * 2 ^ 2 + d.sizeCode16.toNat)) = .ok (relIAccOf op reg (BitVec.ofNat 6 (imm.toNat * 2)) ra) := by
  refine decode_relIAcc ?size ?encoding ?opcode ?hgp ?offset ?idr
  case offset =>
    rw [fieldOffset, extractLsb'_ofNat_parcel (f := imm) (by decide) (by omega), append_zero_eq_ofNat_mul_two]
  case encoding => exact extractLsb'_ofNat_parcel (by decide) (by rw [BitVec.toNat_ofNat]; omega)
  all_goals exact extractLsb'_ofNat_parcel (by decide) (by omega)

/-- Reserved bits 00 are refused under neither reading of R100. -/
@[simp] theorem reservedBitsRefused_zero (d : Decisions) : reservedBitsRefused d 0b00#2 = false := by
  unfold reservedBitsRefused
  split <;> rfl

/-- A parcel with the ARAcc fields at their positions and the reserved bits 00, which no reading refuses (R94, R100). -/
theorem decode_arAcc_sum (d : Decisions) (r0 r1 : Hgp) (op : BitVec 4) :
    decode d (BitVec.ofNat 16 (r1.toNat * 2 ^ 13 + r0.toNat * 2 ^ 10 + op.toNat * 2 ^ 4 + 0b00 * 2 ^ 2 +
      d.sizeCode16.toNat)) = arAccOf op r0 r1 := by
  refine decode_arAcc ?size ?encoding ?reserved ?opcode ?reg0 ?reg1
  case reserved =>
    rw [fieldReserved, extractLsb'_ofNat_parcel (f := 0b00#2) (by decide) (by rw [BitVec.toNat_ofNat]; omega)]
    exact reservedBitsRefused_zero d
  case encoding => exact extractLsb'_ofNat_parcel (by decide) (by rw [BitVec.toNat_ofNat]; omega)
  all_goals exact extractLsb'_ofNat_parcel (by decide) (by omega)

/-- A parcel with the AIAcc fields at their positions, for every opcode at once (R95). -/
theorem decode_aiAcc_sum (d : Decisions) (rd : Hgp) (imm : BitVec 6) (op : BitVec 3) :
    decode d (BitVec.ofNat 16 (imm.toNat * 2 ^ 10 + rd.toNat * 2 ^ 7 + op.toNat * 2 ^ 4 + 0b10 * 2 ^ 2 +
      d.sizeCode16.toNat)) = .ok (aiAccOf op rd imm) := by
  refine decode_aiAcc ?size ?encoding ?opcode ?hgp ?immediate
  case encoding => exact extractLsb'_ofNat_parcel (by decide) (by rw [BitVec.toNat_ofNat]; omega)
  all_goals exact extractLsb'_ofNat_parcel (by decide) (by omega)

/-- Settles O5: the four opcodes of `decode_relIAcc_sum`. -/
theorem relIAccFieldsAndOpcodes : Obligations.RelIAccFieldsAndOpcodes := by
  intro d imm reg ra
  have sum := decode_relIAcc_sum d imm reg ra
  exact ⟨sum 0b00, sum 0b01, sum 0b10, sum 0b11⟩

/-- Settles O6: the ten opcodes of the table by `decode_arAcc_sum`, and the six others by `arAccOf_unassigned`. -/
theorem arAccFieldsAndOpcodes : Obligations.ArAccFieldsAndOpcodes := by
  intro d r0 r1
  have sum := decode_arAcc_sum d r0 r1
  refine ⟨sum 0b0001, sum 0b0010, sum 0b0011, sum 0b0100, sum 0b0101, sum 0b0110, sum 0b0111, sum 0b1000, sum 0b1001,
    sum 0b1010, fun op unassigned => ?_⟩
  have opcode : (BitVec.ofNat 4 op).toNat = op := Nat.mod_eq_of_lt (by omega)
  refine ⟨.araccOpcode, ?_⟩
  calc decode d _ = arAccOf (BitVec.ofNat 4 op) r0 r1 := by rw [← sum, opcode]
    _ = .error .araccOpcode := arAccOf_unassigned r0 r1 (by omega)

/-- Settles O7: the eight opcodes of `decode_aiAcc_sum`. -/
theorem aiAccFieldsAndOpcodes : Obligations.AiAccFieldsAndOpcodes := by
  intro d rd imm
  have sum := decode_aiAcc_sum d rd imm
  exact ⟨sum 0b000, sum 0b001, sum 0b010, sum 0b011, sum 0b100, sum 0b101, sum 0b110, sum 0b111⟩

end Sys2Proof.Machine
end

section
/-! PROOFS. The ARAcc instructions at their encodings (R94, R104, R130), and the three that work bit by bit (R138 to R140). -/

namespace Sys2Proof.Machine

/-! ## A parcel given by a mask and a match value (R104) -/

/-- A field that a mask covers is read from the match value alone. -/
theorem extractLsb'_of_and_mask {w mask value : Parcel} {lo len : Nat} (masked : w &&& mask = value)
    (covers : mask.extractLsb' lo len = BitVec.allOnes len) : w.extractLsb' lo len = value.extractLsb' lo len := by
  rw [← masked, BitVec.extractLsb'_and, covers, BitVec.and_allOnes]

section
variable (d : Decisions) (op : BitVec 4) (r0 r1 : Hgp)

@[simp] theorem fieldEncoding_encodeArAcc : fieldEncoding (encodeArAcc d op r0 r1) = 0b00#2 :=
  (BitVec.extractLsb'_append_eq_of_le (by decide)).trans BitVec.extractLsb'_append_eq_right

@[simp] theorem fieldArOpcode_encodeArAcc : fieldArOpcode (encodeArAcc d op r0 r1) = op :=
  (BitVec.extractLsb'_append_eq_of_le (by decide)).trans <|
    (BitVec.extractLsb'_append_eq_of_le (by decide)).trans BitVec.extractLsb'_append_eq_right

@[simp] theorem fieldReserved_encodeArAcc : fieldReserved (encodeArAcc d op r0 r1) = 0b00#2 :=
  (BitVec.extractLsb'_append_eq_of_le (by decide)).trans <|
    (BitVec.extractLsb'_append_eq_of_le (by decide)).trans <|
      (BitVec.extractLsb'_append_eq_of_le (by decide)).trans BitVec.extractLsb'_append_eq_right

end

/-- Mask 0x03FF leaves the two register fields free: a parcel that agrees under it with an ARAcc parcel of registers 0
has that parcel's opcode and its own registers. -/
theorem decode_of_arAcc_mask {d : Decisions} {w : Parcel} {op : BitVec 4}
    (masked : w &&& 0x03FF = encodeArAcc d op 0 0) :
    decode d w = arAccOf op (w.extractLsb' 10 3) (w.extractLsb' 13 3) := by
  have size : fieldSize w = d.sizeCode16 :=
    (extractLsb'_of_and_mask masked (by decide)).trans (Laws.SizeCode.arAcc d op 0 0)
  have encoding : fieldEncoding w = 0b00#2 :=
    (extractLsb'_of_and_mask masked (by decide)).trans (fieldEncoding_encodeArAcc d op 0 0)
  have opcode : fieldArOpcode w = op :=
    (extractLsb'_of_and_mask masked (by decide)).trans (fieldArOpcode_encodeArAcc d op 0 0)
  have reserved : fieldReserved w = 0b00#2 :=
    (extractLsb'_of_and_mask masked (by decide)).trans (fieldReserved_encodeArAcc d op 0 0)
  refine decode_arAcc size encoding ?accepted opcode rfl rfl
  case accepted => rw [reserved, reservedBitsRefused_zero]

/-! ## HGP registers under the decided map (R99) -/

theorem hgpId_decided_toNat (k : Hgp) : (hgpId Decisions.decided k).toNat = 8 + k.toNat := by
  revert k
  decide

theorem hgpId_decided_ne_zero (k : Hgp) : hgpId Decisions.decided k ≠ 0#5 := by
  revert k
  decide

theorem State.readReg_of_ne_zero {r : RegId} (s : State) (h : r ≠ 0#5) : s.readReg r = s.regStorage r :=
  if_neg fun zero => h zero.1

theorem State.writeReg_of_ne_zero {r : RegId} (s : State) (v : Word) (h : r ≠ 0#5) :
    s.writeReg r v = { s with regs := s.regs.set r.toNat v r.isLt } :=
  if_neg fun zero => h zero.1

section
variable {s : State} (hd : Decided s)
include hd

/-- The model's read of an HGP operand is the register of the spec's own id. -/
theorem State.hgp_eq_regHgp (k : Hgp) : s.hgp k = regHgp s k := by
  rw [State.hgp, show s.cfg.dec = Decisions.decided from hd, State.readReg_of_ne_zero s (hgpId_decided_ne_zero k)]
  simp only [State.regStorage, regHgp, hgpId_decided_toNat]

/-- The next state of the family: one HGP register written, `pc` moved by 2, everything else kept (R130). -/
theorem State.advance_setHgp_eq_putHgp (k : Hgp) (v : Word) : (s.setHgp k v).advance = putHgp s k v := by
  rw [State.setHgp, show s.cfg.dec = Decisions.decided from hd,
    State.writeReg_of_ne_zero s v (hgpId_decided_ne_zero k)]
  simp only [State.advance, putHgp, hgpId_decided_toNat]

/-- An ARAcc result computed from the two operands, written to the second operand's register (R130). -/
theorem State.araccResult_eq_putHgp (f : Word → Word → Word) (r0 r1 : Hgp) :
    s.araccResult r1 (f (s.hgp r1) (s.hgp r0)) = putHgp s r1 (f (regHgp s r1) (regHgp s r0)) := by
  rw [State.araccResult, State.advance_setHgp_eq_putHgp hd, State.hgp_eq_regHgp hd, State.hgp_eq_regHgp hd]

/-! ## The three logical instructions -/

theorem exec_xorR (r0 r1 : Hgp) : exec (.xorR r0 r1) s = .next (putHgp s r1 (regHgp s r1 ^^^ regHgp s r0)) :=
  congrArg Host.Outcome.next (State.araccResult_eq_putHgp hd (· ^^^ ·) r0 r1)

theorem exec_andR (r0 r1 : Hgp) : exec (.andR r0 r1) s = .next (putHgp s r1 (regHgp s r1 &&& regHgp s r0)) :=
  congrArg Host.Outcome.next (State.araccResult_eq_putHgp hd (· &&& ·) r0 r1)

theorem exec_orR (r0 r1 : Hgp) : exec (.orR r0 r1) s = .next (putHgp s r1 (regHgp s r1 ||| regHgp s r0)) :=
  congrArg Host.Outcome.next (State.araccResult_eq_putHgp hd (· ||| ·) r0 r1)

end

/-- Settles O24: the encodings by `decode_of_arAcc_mask`, the next states by the three `exec` equations, and each bit of
their results by the bit lemmas of `BitVec`. -/
theorem registerLogicIsBitByBit : Obligations.RegisterLogicIsBitByBit := by
  rintro w A B rfl rfl
  refine ⟨fun xor => ?xorEncoding, fun and => ?andEncoding, fun or => ?orEncoding, fun s hd =>
    ⟨_, _, _, exec_xorR hd _ _, exec_andR hd _ _, exec_orR hd _ _, fun i _ => ⟨?xorBit, ?andBit, ?orBit⟩⟩⟩
  case xorEncoding => exact decode_of_arAcc_mask (op := 0b1000) xor
  case andEncoding => exact decode_of_arAcc_mask (op := 0b1001) and
  case orEncoding => exact decode_of_arAcc_mask (op := 0b1010) or
  case xorBit => exact BitVec.getLsbD_xor
  case andBit => exact BitVec.getLsbD_and
  case orBit => exact BitVec.getLsbD_or

end Sys2Proof.Machine
end

section
/-! PROOFS. The AIAcc instructions: their immediates (R98, R150), their encodings (R95, R103, R104), the value each writes
and the register alone it writes (R150 to R158), and the two that work bit by bit (R157, R158). -/

namespace Sys2Proof.Machine

/-! ## The immediates -/

theorem immUnsigned_toNat (imm : BitVec 6) : (immUnsigned imm).toNat = imm.toNat :=
  BitVec.toNat_setWidth_of_le (by decide)

/-- Sign extension adds 2^64 - 2^6 to an immediate whose bit 5 is set, and nothing to any other. -/
theorem immSigned_eq (imm : BitVec 6) :
    immSigned imm = if imm.toNat < 32 then BitVec.ofNat 64 imm.toNat
      else BitVec.ofNat 64 (0xFFFFFFFFFFFFFFE0 + (imm.toNat - 32)) := by
  have bound : imm.toNat < 64 := imm.isLt
  apply BitVec.eq_of_toNat_eq
  rw [immSigned, BitVec.toNat_signExtend, BitVec.toNat_setWidth_of_le (by decide), BitVec.msb_eq_decide]
  by_cases positive : imm.toNat < 32
  · rw [if_neg (by simpa using positive), if_pos positive, BitVec.toNat_ofNat]
    omega
  · rw [if_pos (by simpa using positive), if_neg positive, BitVec.toNat_ofNat]
    omega

/-- Bits 63:5 of a sign-extended immediate are copies of its bit 5. -/
theorem getLsbD_immSigned (imm : BitVec 6) {i : Nat} (h : i < 64) :
    (immSigned imm).getLsbD i = imm.getLsbD (min i 5) := by
  have msb : imm.msb = imm.getLsbD 5 := rfl
  rw [immSigned, BitVec.getLsbD_signExtend, msb, decide_eq_true h, Bool.true_and]
  by_cases low : i < 6
  · rw [if_pos low, Nat.min_eq_left (by omega)]
  · rw [if_neg low, Nat.min_eq_right (by omega)]

/-! ## What an AIAcc parcel decodes to -/

theorem fieldSize_of_decode {d : Decisions} {w : Parcel} {i : Instr} (h : decode d w = .ok i) :
    fieldSize w = d.sizeCode16 := by
  by_contra longer
  rw [decode_eq, decodeNumbered, if_pos longer] at h
  cases h

theorem eq_aiAccOf_of_decode {d : Decisions} {w : Parcel} {i : Instr} (encoding : fieldEncoding w = 0b10#2)
    (h : decode d w = .ok i) : i = aiAccOf (fieldAiOpcode w) (fieldAiHgp w) (fieldImm w) :=
  Except.ok.inj (h.symm.trans (decode_aiAcc (fieldSize_of_decode h) encoding rfl rfl rfl))

section
variable (d : Decisions) (op : BitVec 3) (rd : Hgp) (imm : BitVec 6)

@[simp] theorem fieldEncoding_encodeAiAcc : fieldEncoding (encodeAiAcc d op rd imm) = 0b10#2 :=
  (BitVec.extractLsb'_append_eq_of_le (by decide)).trans BitVec.extractLsb'_append_eq_right

@[simp] theorem fieldAiOpcode_encodeAiAcc : fieldAiOpcode (encodeAiAcc d op rd imm) = op :=
  (BitVec.extractLsb'_append_eq_of_le (by decide)).trans <|
    (BitVec.extractLsb'_append_eq_of_le (by decide)).trans BitVec.extractLsb'_append_eq_right

end

/-- Mask 0x007F leaves the register and the immediate free: a parcel that agrees under it with an AIAcc parcel of zeros
has that parcel's opcode and its own register and immediate. -/
theorem decode_of_aiAcc_mask {d : Decisions} {w : Parcel} {op : BitVec 3}
    (masked : w &&& 0x007F = encodeAiAcc d op 0 0) :
    decode d w = .ok (aiAccOf op (w.extractLsb' 7 3) (w.extractLsb' 10 6)) := by
  have size : fieldSize w = d.sizeCode16 :=
    (extractLsb'_of_and_mask masked (by decide)).trans (Laws.SizeCode.aiAcc d op 0 0)
  have encoding : fieldEncoding w = 0b10#2 :=
    (extractLsb'_of_and_mask masked (by decide)).trans (fieldEncoding_encodeAiAcc d op 0 0)
  have opcode : fieldAiOpcode w = op :=
    (extractLsb'_of_and_mask masked (by decide)).trans (fieldAiOpcode_encodeAiAcc d op 0 0)
  exact decode_aiAcc size encoding opcode rfl rfl

/-! ## What each instruction does, as a function of the old value of its register -/

/-- The value an AIAcc instruction writes, from its opcode, its immediate and the old value of its register; `none` for a
division with no quotient (R151 to R158). `exec_aiAccOf` ties it to `exec`. -/
def aiAccValue (op : BitVec 3) (imm : BitVec 6) (old : Word) : Option Word :=
  match op with
  | 0b000#3 => some (old + immUnsigned imm)
  | 0b001#3 => some (old + immSigned imm)
  | 0b010#3 => some (old * immSigned imm)
  | 0b011#3 => divide Decisions.decided old (immSigned imm)
  | 0b100#3 => some (old <<< imm.toNat)
  | 0b101#3 => some (old >>> imm.toNat)
  | 0b110#3 => some (old ^^^ immSigned imm)
  | 0b111#3 => some (old ||| immSigned imm)

/-- The outcome of a result that may be missing: one HGP register written, or the stop of R142. -/
def putHgpOrStop (s : State) (k : Hgp) (result : Option Word) : Host.Outcome State Fault Refusal :=
  match result with
  | some v => .next (putHgp s k v)
  | none => .fault .divisionUndefined

section
variable {s : State} (hd : Decided s) (rd : Hgp) (imm : BitVec 6)
include hd

/-- An AIAcc result computed from the register's old value, written to that register (R150). -/
theorem State.aiaccResult_eq_putHgp (f : Word → Word) :
    s.aiaccResult rd (f (s.hgp rd)) = putHgp s rd (f (regHgp s rd)) := by
  rw [State.aiaccResult, State.advance_setHgp_eq_putHgp hd, State.hgp_eq_regHgp hd]

theorem exec_addiu : exec (.addiu rd imm) s = .next (putHgp s rd (regHgp s rd + immUnsigned imm)) :=
  congrArg Host.Outcome.next (State.aiaccResult_eq_putHgp hd rd (· + immUnsigned imm))

theorem exec_addi : exec (.addi rd imm) s = .next (putHgp s rd (regHgp s rd + immSigned imm)) :=
  congrArg Host.Outcome.next (State.aiaccResult_eq_putHgp hd rd (· + immSigned imm))

theorem exec_mulI : exec (.mulI rd imm) s = .next (putHgp s rd (regHgp s rd * immSigned imm)) :=
  congrArg Host.Outcome.next (State.aiaccResult_eq_putHgp hd rd (· * immSigned imm))

theorem exec_divI :
    exec (.divI rd imm) s = putHgpOrStop s rd (divide Decisions.decided (regHgp s rd) (immSigned imm)) := by
  rw [exec, execDivI, show s.cfg.dec = Decisions.decided from hd, State.hgp_eq_regHgp hd]
  cases divide Decisions.decided (regHgp s rd) (immSigned imm) with
  | none => rfl
  | some q => exact congrArg Host.Outcome.next (State.aiaccResult_eq_putHgp hd rd fun _ => q)

theorem exec_srlI : exec (.srlI rd imm) s = .next (putHgp s rd (regHgp s rd <<< imm.toNat)) :=
  congrArg Host.Outcome.next (State.aiaccResult_eq_putHgp hd rd (· <<< imm.toNat))

/-- The decided reading of a right shift lets zeros enter (D16). -/
theorem exec_srrI : exec (.srrI rd imm) s = .next (putHgp s rd (regHgp s rd >>> imm.toNat)) := by
  rw [exec, execSrrI, show s.cfg.dec = Decisions.decided from hd]
  exact congrArg Host.Outcome.next (State.aiaccResult_eq_putHgp hd rd (· >>> imm.toNat))

theorem exec_xorI : exec (.xorI rd imm) s = .next (putHgp s rd (regHgp s rd ^^^ immSigned imm)) :=
  congrArg Host.Outcome.next (State.aiaccResult_eq_putHgp hd rd (· ^^^ immSigned imm))

theorem exec_orI : exec (.orI rd imm) s = .next (putHgp s rd (regHgp s rd ||| immSigned imm)) :=
  congrArg Host.Outcome.next (State.aiaccResult_eq_putHgp hd rd (· ||| immSigned imm))

theorem exec_aiAccOf (op : BitVec 3) :
    exec (aiAccOf op rd imm) s = putHgpOrStop s rd (aiAccValue op imm (regHgp s rd)) :=
  match op with
  | 0b000#3 => exec_addiu hd rd imm
  | 0b001#3 => exec_addi hd rd imm
  | 0b010#3 => exec_mulI hd rd imm
  | 0b011#3 => exec_divI hd rd imm
  | 0b100#3 => exec_srlI hd rd imm
  | 0b101#3 => exec_srrI hd rd imm
  | 0b110#3 => exec_xorI hd rd imm
  | 0b111#3 => exec_orI hd rd imm

end

/-- Settles O29: the two extensions, and for a decoded AIAcc parcel the function `aiAccValue` of its opcode and immediate. -/
theorem aiAccWritesItsRegisterAlone : Obligations.AiAccWritesItsRegisterAlone := by
  refine ⟨fun imm => ⟨immUnsigned_toNat imm, immSigned_eq imm⟩, fun w i encoding decoded => ?_⟩
  obtain rfl := eq_aiAccOf_of_decode encoding decoded
  exact ⟨aiAccValue (fieldAiOpcode w) (fieldImm w), fun s hd => exec_aiAccOf hd (fieldAiHgp w) _ _⟩

/-- Settles O30: the encodings by `decode_of_aiAcc_mask`, the next states by the two `exec` equations, and each bit of
their results by the bits of the sign-extended immediate. -/
theorem immediateLogicIsBitByBit : Obligations.ImmediateLogicIsBitByBit := by
  rintro w D imm rfl rfl
  refine ⟨fun xor => ?xorEncoding, fun or => ?orEncoding, fun s hd =>
    ⟨_, _, exec_xorI hd _ _, exec_orI hd _ _, fun i hi => ⟨?xorBit, ?orBit⟩⟩⟩
  case xorEncoding => exact decode_of_aiAcc_mask (op := 0b110) xor
  case orEncoding => exact decode_of_aiAcc_mask (op := 0b111) or
  case xorBit => rw [BitVec.getLsbD_xor, getLsbD_immSigned _ hi]
  case orBit => rw [BitVec.getLsbD_or, getLsbD_immSigned _ hi]

end Sys2Proof.Machine
end

section
/-! PROOFS. Decoder and encoder as inverses of each other (R93 to R104), the opcode map as masks (R104), and the parcels
that are no instruction (R90, R105). -/

namespace Sys2Proof.Machine

/-! ## The fields of an encoded parcel -/

/-- A field above the low part of a parcel is a field of the high part. -/
theorem extractLsb'_append_of_high {m n start len : Nat} {hi : BitVec m} {lo : BitVec n} {field : BitVec len}
    (above : n ≤ start) (inHigh : hi.extractLsb' (start - n) len = field) : (hi ++ lo).extractLsb' start len = field :=
  (BitVec.extractLsb'_append_eq_of_le above).trans inHigh

section
variable (d : Decisions)

section
variable (op : BitVec 2) (reg : Hgp) (off : BitVec 6) (ra : Idr)

@[simp] theorem fieldEncoding_encodeRelIAcc : fieldEncoding (encodeRelIAcc d op reg off ra) = 0b01#2 :=
  (BitVec.extractLsb'_append_eq_of_le (by decide)).trans BitVec.extractLsb'_append_eq_right

@[simp] theorem fieldRelOpcode_encodeRelIAcc : fieldRelOpcode (encodeRelIAcc d op reg off ra) = op := by
  iterate 2 refine extractLsb'_append_of_high (by decide) ?_
  exact BitVec.extractLsb'_append_eq_right

@[simp] theorem fieldIdr_encodeRelIAcc : fieldIdr (encodeRelIAcc d op reg off ra) = ra := by
  iterate 3 refine extractLsb'_append_of_high (by decide) ?_
  exact BitVec.extractLsb'_append_eq_right

@[simp] theorem fieldRelHgp_encodeRelIAcc : fieldRelHgp (encodeRelIAcc d op reg off ra) = reg := by
  iterate 4 refine extractLsb'_append_of_high (by decide) ?_
  exact BitVec.extractLsb'_append_eq_right

/-- The encoding drops offset bit 0, so only an even offset comes back (R97). -/
theorem fieldOffset_encodeRelIAcc {off : BitVec 6} (even : offsetEven off = true) :
    fieldOffset (encodeRelIAcc d op reg off ra) = off := by
  have bit0 : 0b0#1 = off.extractLsb' 0 1 := by revert off; decide
  have upper : (encodeRelIAcc d op reg off ra).extractLsb' 11 5 = off.extractLsb' 1 5 := by
    iterate 4 refine extractLsb'_append_of_high (by decide) ?_
    exact BitVec.extractLsb'_append_eq_left
  rw [fieldOffset, upper, bit0]
  exact BitVec.extractLsb'_append_extractLsb'

end

section
variable (op : BitVec 4) (r0 r1 : Hgp)

@[simp] theorem fieldReg0_encodeArAcc : fieldReg0 (encodeArAcc d op r0 r1) = r0 := by
  iterate 4 refine extractLsb'_append_of_high (by decide) ?_
  exact BitVec.extractLsb'_append_eq_right

@[simp] theorem fieldReg1_encodeArAcc : fieldReg1 (encodeArAcc d op r0 r1) = r1 := by
  iterate 4 refine extractLsb'_append_of_high (by decide) ?_
  exact BitVec.extractLsb'_append_eq_left

end

section
variable (op : BitVec 3) (rd : Hgp) (imm : BitVec 6)

@[simp] theorem fieldAiHgp_encodeAiAcc : fieldAiHgp (encodeAiAcc d op rd imm) = rd := by
  iterate 3 refine extractLsb'_append_of_high (by decide) ?_
  exact BitVec.extractLsb'_append_eq_right

@[simp] theorem fieldImm_encodeAiAcc : fieldImm (encodeAiAcc d op rd imm) = imm := by
  iterate 3 refine extractLsb'_append_of_high (by decide) ?_
  exact BitVec.extractLsb'_append_eq_left

end

/-! ## Decoding what was encoded -/

theorem decode_encodeRelIAcc (op : BitVec 2) (reg : Hgp) {off : BitVec 6} (ra : Idr) (even : offsetEven off = true) :
    decode d (encodeRelIAcc d op reg off ra) = .ok (relIAccOf op reg off ra) :=
  decode_relIAcc (Laws.SizeCode.relIAcc d op reg off ra) (by simp) (by simp) (by simp)
    (fieldOffset_encodeRelIAcc d op reg ra even) (by simp)

theorem decode_encodeArAcc (op : BitVec 4) (r0 r1 : Hgp) : decode d (encodeArAcc d op r0 r1) = arAccOf op r0 r1 :=
  decode_arAcc (Laws.SizeCode.arAcc d op r0 r1) (by simp) (by simp) (by simp) (by simp) (by simp)

theorem decode_encodeAiAcc (op : BitVec 3) (rd : Hgp) (imm : BitVec 6) :
    decode d (encodeAiAcc d op rd imm) = .ok (aiAccOf op rd imm) :=
  decode_aiAcc (Laws.SizeCode.aiAcc d op rd imm) (by simp) (by simp) (by simp) (by simp)

end

/-- Settles O1: by the format of the instruction; an offset comes back because it is even. -/
theorem decodeOfEncodeIsTheInstruction : Obligations.DecodeOfEncodeIsTheInstruction := by
  intro d i wellFormed
  cases i
  case ld | lo | sd | so => exact decode_encodeRelIAcc d _ _ _ wellFormed
  case addiu | addi | mulI | divI | srlI | srrI | xorI | orI => exact decode_encodeAiAcc d _ _ _
  case add | sub | mulR | divR | notR | srlR | srrR | xorR | andR | orR => exact decode_encodeArAcc d _ _ _

/-! ## Encoding what was decoded -/

/-- Two neighbouring fields of a parcel are one field. -/
theorem append_extractLsb'_of_eq {n k start len : Nat} {w : BitVec n} {hi : BitVec k}
    (next : hi = w.extractLsb' (start + len) k) : hi ++ w.extractLsb' start len = w.extractLsb' start (k + len) := by
  rw [next]
  exact BitVec.extractLsb'_append_extractLsb'_eq_extractLsb' rfl

section
variable {d : Decisions} {w : Parcel} (size : fieldSize w = d.sizeCode16)
include size

theorem encodeRelIAcc_fields (encoding : fieldEncoding w = 0b01#2) :
    encodeRelIAcc d (fieldRelOpcode w) (fieldRelHgp w) (fieldOffset w) (fieldIdr w) = w := by
  have offset : (fieldOffset w).extractLsb' 1 5 = w.extractLsb' 11 5 := BitVec.extractLsb'_append_eq_left
  calc encodeRelIAcc d (fieldRelOpcode w) (fieldRelHgp w) (fieldOffset w) (fieldIdr w)
      = w.extractLsb' 11 5 ++ fieldRelHgp w ++ fieldIdr w ++ fieldRelOpcode w ++ fieldEncoding w ++ fieldSize w := by
        rw [encodeRelIAcc, offset, encoding, size]
    _ = w.extractLsb' 0 16 := by
        iterate 5 refine append_extractLsb'_of_eq ?_
        rfl
    _ = w := BitVec.extractLsb'_eq_self

theorem encodeArAcc_fields (encoding : fieldEncoding w = 0b00#2) (reserved : fieldReserved w = 0b00#2) :
    encodeArAcc d (fieldArOpcode w) (fieldReg0 w) (fieldReg1 w) = w := by
  calc encodeArAcc d (fieldArOpcode w) (fieldReg0 w) (fieldReg1 w)
      = fieldReg1 w ++ fieldReg0 w ++ fieldReserved w ++ fieldArOpcode w ++ fieldEncoding w ++ fieldSize w := by
        rw [encodeArAcc, encoding, reserved, size]
    _ = w.extractLsb' 0 16 := by
        iterate 5 refine append_extractLsb'_of_eq ?_
        rfl
    _ = w := BitVec.extractLsb'_eq_self

theorem encodeAiAcc_fields (encoding : fieldEncoding w = 0b10#2) :
    encodeAiAcc d (fieldAiOpcode w) (fieldAiHgp w) (fieldImm w) = w := by
  calc encodeAiAcc d (fieldAiOpcode w) (fieldAiHgp w) (fieldImm w)
      = fieldImm w ++ fieldAiHgp w ++ fieldAiOpcode w ++ fieldEncoding w ++ fieldSize w := by
        rw [encodeAiAcc, encoding, size]
    _ = w.extractLsb' 0 16 := by
        iterate 4 refine append_extractLsb'_of_eq ?_
        rfl
    _ = w := BitVec.extractLsb'_eq_self

end

theorem encode_relIAccOf (d : Decisions) (op : BitVec 2) (reg : Hgp) (off : BitVec 6) (ra : Idr) :
    encode d (relIAccOf op reg off ra) = encodeRelIAcc d op reg off ra := by
  unfold relIAccOf
  split <;> rfl

theorem encode_aiAccOf (d : Decisions) (op : BitVec 3) (rd : Hgp) (imm : BitVec 6) :
    encode d (aiAccOf op rd imm) = encodeAiAcc d op rd imm := by
  unfold aiAccOf
  split <;> rfl

theorem encode_of_arAccOf {op : BitVec 4} {r0 r1 : Hgp} {i : Instr} (d : Decisions) (h : arAccOf op r0 r1 = .ok i) :
    encode d i = encodeArAcc d op r0 r1 := by
  unfold arAccOf at h
  split at h <;> cases h <;> rfl

theorem relIAccOf_wellFormed (op : BitVec 2) (reg : Hgp) (off : BitVec 6) (ra : Idr) :
    (relIAccOf op reg off ra).wellFormed = offsetEven off := by
  unfold relIAccOf
  split <;> rfl

theorem aiAccOf_wellFormed (op : BitVec 3) (rd : Hgp) (imm : BitVec 6) : (aiAccOf op rd imm).wellFormed = true := by
  unfold aiAccOf
  split <;> rfl

theorem arAccOf_wellFormed {op : BitVec 4} {r0 r1 : Hgp} {i : Instr} (h : arAccOf op r0 r1 = .ok i) :
    i.wellFormed = true := by
  unfold arAccOf at h
  split at h <;> cases h <;> rfl

/-- A decoded offset is even, because its bit 0 is not encoded (R97). -/
theorem offsetEven_fieldOffset (w : Parcel) : offsetEven (fieldOffset w) = true := by
  have bit0 : (fieldOffset w).getLsbD 0 = false := by rw [fieldOffset, BitVec.getLsbD_append]; rfl
  rw [offsetEven, bit0]
  rfl

/-- The decoder by format, for a parcel that decodes: the format's fields select the instruction (R91, R92). -/
theorem decode_ok_cases {d : Decisions} {w : Parcel} {i : Instr} (h : decode d w = .ok i) :
    (fieldEncoding w = 0b01#2 ∧ i = relIAccOf (fieldRelOpcode w) (fieldRelHgp w) (fieldOffset w) (fieldIdr w)) ∨
    (fieldEncoding w = 0b00#2 ∧ reservedBitsRefused d (fieldReserved w) = false ∧
      arAccOf (fieldArOpcode w) (fieldReg0 w) (fieldReg1 w) = .ok i) ∨
    (fieldEncoding w = 0b10#2 ∧ i = aiAccOf (fieldAiOpcode w) (fieldAiHgp w) (fieldImm w)) := by
  have size := fieldSize_of_decode h
  match encoding : fieldEncoding w with
  | 0b01#2 => exact .inl ⟨rfl, Except.ok.inj (h.symm.trans (decode_relIAcc size encoding rfl rfl rfl rfl))⟩
  | 0b10#2 => exact .inr (.inr ⟨rfl, eq_aiAccOf_of_decode encoding h⟩)
  | 0b11#2 => exact absurd (h.symm.trans (decode_ctrl size encoding)) nofun
  | 0b00#2 =>
    cases reserved : reservedBitsRefused d (fieldReserved w) with
    | true => exact absurd (h.symm.trans (decode_arAcc_reserved size encoding reserved)) nofun
    | false => exact .inr (.inl ⟨rfl, rfl, (decode_arAcc size encoding reserved rfl rfl rfl).symm.trans h⟩)

/-- Settles O2: the fields of a parcel, put together again, are the parcel; in the ARAcc format because the reserved bits
are refused unless they are the 00 that the encoder writes. -/
theorem encodeOfDecodeIsTheParcel : Obligations.EncodeOfDecodeIsTheParcel := by
  intro d w i refuses h
  have size := fieldSize_of_decode h
  obtain ⟨encoding, rfl⟩ | ⟨encoding, accepted, selected⟩ | ⟨encoding, rfl⟩ := decode_ok_cases h
  · exact ⟨(encode_relIAccOf ..).trans (encodeRelIAcc_fields size encoding),
      (relIAccOf_wellFormed ..).trans (offsetEven_fieldOffset w)⟩
  · have reserved : fieldReserved w = 0b00#2 := by simpa [reservedBitsRefused, refuses] using accepted
    exact ⟨(encode_of_arAccOf d selected).trans (encodeArAcc_fields size encoding reserved), arAccOf_wellFormed selected⟩
  · exact ⟨(encode_aiAccOf ..).trans (encodeAiAcc_fields size encoding), aiAccOf_wellFormed ..⟩

/-! ## The opcode map as masks (R104) -/

/-- A mask of ones keeps the low part of a parcel, and masks the high part by what stands above. -/
theorem append_and_append_allOnes {m n : Nat} {hi mask kept : BitVec m} {lo : BitVec n} (masked : hi &&& mask = kept) :
    (hi ++ lo) &&& (mask ++ BitVec.allOnes n) = kept ++ lo := by
  rw [BitVec.and_append, masked, BitVec.and_allOnes]

theorem encodeRelIAcc_and_mask (d : Decisions) (op : BitVec 2) (reg : Hgp) (off : BitVec 6) (ra : Idr) :
    encodeRelIAcc d op reg off ra &&& 0x003F = encodeRelIAcc d op 0 0 0 := by
  have mask : (0x003F : Parcel) = 0#10 ++ BitVec.allOnes 2 ++ BitVec.allOnes 2 ++ BitVec.allOnes 2 := rfl
  rw [mask]
  iterate 3 refine append_and_append_allOnes ?_
  exact BitVec.and_zero

theorem encodeArAcc_and_mask (d : Decisions) (op : BitVec 4) (r0 r1 : Hgp) :
    encodeArAcc d op r0 r1 &&& 0x03FF = encodeArAcc d op 0 0 := by
  have mask : (0x03FF : Parcel) =
      0#6 ++ BitVec.allOnes 2 ++ BitVec.allOnes 4 ++ BitVec.allOnes 2 ++ BitVec.allOnes 2 := rfl
  rw [mask]
  iterate 4 refine append_and_append_allOnes ?_
  exact BitVec.and_zero

theorem encodeAiAcc_and_mask (d : Decisions) (op : BitVec 3) (rd : Hgp) (imm : BitVec 6) :
    encodeAiAcc d op rd imm &&& 0x007F = encodeAiAcc d op 0 0 := by
  have mask : (0x007F : Parcel) = 0#9 ++ BitVec.allOnes 3 ++ BitVec.allOnes 2 ++ BitVec.allOnes 2 := rfl
  rw [mask]
  iterate 3 refine append_and_append_allOnes ?_
  exact BitVec.and_zero

/-- Mask 0x003F leaves the registers and the offset free: a parcel that agrees under it with a RelIAcc parcel of zeros has
that parcel's opcode and its own fields. -/
theorem decode_of_relIAcc_mask {d : Decisions} {w : Parcel} {op : BitVec 2}
    (masked : w &&& 0x003F = encodeRelIAcc d op 0 0 0) :
    decode d w = .ok (relIAccOf op (fieldRelHgp w) (fieldOffset w) (fieldIdr w)) := by
  have size : fieldSize w = d.sizeCode16 :=
    (extractLsb'_of_and_mask masked (by decide)).trans (Laws.SizeCode.relIAcc d op 0 0 0)
  have encoding : fieldEncoding w = 0b01#2 :=
    (extractLsb'_of_and_mask masked (by decide)).trans (fieldEncoding_encodeRelIAcc d op 0 0 0)
  have opcode : fieldRelOpcode w = op :=
    (extractLsb'_of_and_mask masked (by decide)).trans (fieldRelOpcode_encodeRelIAcc d op 0 0 0)
  exact decode_relIAcc size encoding opcode rfl rfl rfl

section
variable (w : Parcel)

theorem relIAcc_mask_iff (op : BitVec 2) :
    w &&& 0x003F = encodeRelIAcc Decisions.decided op 0 0 0 ↔
      ∃ reg off ra, decode Decisions.decided w = .ok (relIAccOf op reg off ra) := by
  constructor
  · exact fun masked => ⟨_, _, _, decode_of_relIAcc_mask masked⟩
  · rintro ⟨reg, off, ra, h⟩
    rw [← (encodeOfDecodeIsTheParcel _ w _ rfl h).1, encode_relIAccOf, encodeRelIAcc_and_mask]

theorem arAcc_mask_iff {op : BitVec 4} {instr : Hgp → Hgp → Instr}
    (assigned : ∀ r0 r1, arAccOf op r0 r1 = .ok (instr r0 r1)) :
    w &&& 0x03FF = encodeArAcc Decisions.decided op 0 0 ↔ ∃ r0 r1, decode Decisions.decided w = .ok (instr r0 r1) := by
  constructor
  · exact fun masked => ⟨_, _, (decode_of_arAcc_mask masked).trans (assigned _ _)⟩
  · rintro ⟨r0, r1, h⟩
    rw [← (encodeOfDecodeIsTheParcel _ w _ rfl h).1, encode_of_arAccOf _ (assigned r0 r1), encodeArAcc_and_mask]

theorem aiAcc_mask_iff (op : BitVec 3) :
    w &&& 0x007F = encodeAiAcc Decisions.decided op 0 0 ↔
      ∃ rd imm, decode Decisions.decided w = .ok (aiAccOf op rd imm) := by
  constructor
  · exact fun masked => ⟨_, _, decode_of_aiAcc_mask masked⟩
  · rintro ⟨rd, imm, h⟩
    rw [← (encodeOfDecodeIsTheParcel _ w _ rfl h).1, encode_aiAccOf, encodeAiAcc_and_mask]

end

/-- Settles O3: each row's match value is the parcel of its opcode with every operand 0. -/
theorem opcodeMapIsMaskAndMatch : Obligations.OpcodeMapIsMaskAndMatch := by
  intro w
  have arAcc {op : BitVec 4} {instr : Hgp → Hgp → Instr} := arAcc_mask_iff w (op := op) (instr := instr)
  exact ⟨relIAcc_mask_iff w 0b00, relIAcc_mask_iff w 0b01, relIAcc_mask_iff w 0b10, relIAcc_mask_iff w 0b11,
    arAcc (op := 0b0001) fun _ _ => rfl, arAcc (op := 0b0010) fun _ _ => rfl, arAcc (op := 0b0011) fun _ _ => rfl,
    arAcc (op := 0b0100) fun _ _ => rfl, arAcc (op := 0b0101) fun _ _ => rfl, arAcc (op := 0b0110) fun _ _ => rfl,
    arAcc (op := 0b0111) fun _ _ => rfl, arAcc (op := 0b1000) fun _ _ => rfl, arAcc (op := 0b1001) fun _ _ => rfl,
    arAcc (op := 0b1010) fun _ _ => rfl,
    aiAcc_mask_iff w 0b000, aiAcc_mask_iff w 0b001, aiAcc_mask_iff w 0b010, aiAcc_mask_iff w 0b011,
    aiAcc_mask_iff w 0b100, aiAcc_mask_iff w 0b101, aiAcc_mask_iff w 0b110, aiAcc_mask_iff w 0b111⟩

/-! ## Parcels that are no instruction -/

/-- A field of a bit vector as a number. -/
theorem toNat_extractLsb'_eq_div_mod {n : Nat} (w : BitVec n) (lo len : Nat) :
    (w.extractLsb' lo len).toNat = w.toNat / 2 ^ lo % 2 ^ len := by
  rw [BitVec.extractLsb'_toNat, Nat.shiftRight_eq_div_pow]

theorem arAccOf_error_iff (op : BitVec 4) (r0 r1 : Hgp) :
    (∃ r, arAccOf op r0 r1 = .error r) ↔ op.toNat = 0 ∨ 11 ≤ op.toNat := by
  constructor
  · rintro ⟨r, h⟩
    unfold arAccOf at h
    split at h
    case h_11 =>
      simp only [imp_false, BitVec.toNat_eq, BitVec.toNat_ofNat] at *
      omega
    all_goals cases h
  · exact fun unassigned => ⟨_, arAccOf_unassigned r0 r1 unassigned⟩

/-- Which parcels are refused, in the terms of the fields (R105). -/
theorem decode_error_iff (d : Decisions) (w : Parcel) :
    (∃ r, decode d w = .error r) ↔
      fieldSize w ≠ d.sizeCode16 ∨ fieldEncoding w = 0b11#2 ∨
        (fieldEncoding w = 0b00#2 ∧ (reservedBitsRefused d (fieldReserved w) = true ∨
          (fieldArOpcode w).toNat = 0 ∨ 11 ≤ (fieldArOpcode w).toNat)) := by
  by_cases size : fieldSize w = d.sizeCode16
  case neg => exact iff_of_true ⟨_, if_pos size⟩ (.inl size)
  match encoding : fieldEncoding w with
  | 0b01#2 => simp [size, decode_relIAcc size encoding rfl rfl rfl rfl]
  | 0b10#2 => simp [size, decode_aiAcc size encoding rfl rfl rfl]
  | 0b11#2 => simp [decode_ctrl size encoding]
  | 0b00#2 =>
    cases reserved : reservedBitsRefused d (fieldReserved w) with
    | true => simp [decode_arAcc_reserved size encoding reserved]
    | false => simp [size, decode_arAcc size encoding reserved rfl rfl rfl, arAccOf_error_iff]

/-- Settles O8: `decode_error_iff`, with each field as a quotient and a remainder. -/
theorem unassignedParcelsAreExactlyThese : Obligations.UnassignedParcelsAreExactlyThese := by
  intro w
  rw [decode_error_iff]
  simp [Decisions.decided, reservedBitsRefused, fieldSize, fieldEncoding, fieldReserved, fieldArOpcode, BitVec.toNat_eq,
    Nat.shiftRight_eq_div_pow]

/-- Settles O9: the decoder evaluates each of the nine parcels. -/
theorem knownParcelsDecode : Obligations.KnownParcelsDecode :=
  ⟨rfl, rfl, rfl, rfl, rfl, rfl, rfl, rfl, rfl⟩

/-- A parcel of another size code is refused with the length the code announces (R91). -/
theorem decode_longer {d : Decisions} {w : Parcel} (size : fieldSize w ≠ d.sizeCode16) :
    decode d w = .error (.longerEncoding (longerLength d (fieldSize w))) :=
  if_pos size

/-- Settles O56: the configured codes are tested in the order 32, 64, longer; the decided ones are read off the number of
the parcel. -/
theorem sizeFieldAnnouncesTheLength : Obligations.SizeFieldAnnouncesTheLength := by
  constructor
  · intro d w size
    rw [decode_longer (d := d) (w := w) size]
    refine ⟨fun is32 => ?bits32, fun is64 not32 => ?bits64, fun isLonger not32 not64 => ?longer⟩
    case bits32 => rw [fieldSize, is32, longerLength, if_pos rfl]
    case bits64 => rw [fieldSize, is64, longerLength, if_neg not32, if_pos rfl]
    case longer => rw [fieldSize, isLonger, longerLength, if_neg not32, if_neg not64, if_pos rfl]
  · intro w
    have announced {code : BitVec 2} (low : w.toNat % 4 = code.toNat) (longer : code ≠ 0b00#2) :
        decode Decisions.decided w = .error (.longerEncoding (longerLength Decisions.decided code)) := by
      have size : fieldSize w = code := by
        apply BitVec.eq_of_toNat_eq
        rw [fieldSize, toNat_extractLsb'_eq_div_mod, ← low]
        omega
      rw [decode_longer (by rw [size]; exact longer), size]
    exact ⟨fun low => announced (code := 0b01#2) low (by decide), fun low => announced (code := 0b10#2) low (by decide),
      fun low => announced (code := 0b11#2) low (by decide)⟩

end Sys2Proof.Machine
end

section
/-! PROOFS. Bytes and values (R61), memory and the record of stored-to addresses (R67, R79), and the access primitives
with their checks in order (R66 to R68, R71, R74, R76). -/

namespace Sys2Proof.Machine

/-! ## Addresses and appended bit vectors -/

theorem add_one_add_ofNat (a : Word) (i : Nat) : a + 1 + BitVec.ofNat 64 i = a + BitVec.ofNat 64 (i + 1) := by
  rw [BitVec.add_assoc, Nat.add_comm i 1, BitVec.ofNat_add]
  rfl

/-- An appended bit vector as a number. -/
theorem toNat_append_eq_add {m n : Nat} (hi : BitVec m) (lo : BitVec n) :
    (hi ++ lo).toNat = hi.toNat * 2 ^ n + lo.toNat := by
  rw [BitVec.toNat_append, ← Nat.shiftLeft_add_eq_or_of_lt lo.isLt, Nat.shiftLeft_eq]

/-! ## Values and their bytes, least significant first (R61) -/

/-- The value of fewer than 8 bytes with one more byte below them. -/
theorem wordOfBytesLE_cons_toNat (b : Byte) {bs : List Byte} (short : bs.length < 8)
    (bound : (wordOfBytesLE bs).toNat < 2 ^ (8 * bs.length)) :
    (wordOfBytesLE (b :: bs)).toNat = b.toNat + (wordOfBytesLE bs).toNat * 2 ^ 8 := by
  have fits : (wordOfBytesLE bs).toNat * 2 ^ 8 < 2 ^ 64 :=
    calc (wordOfBytesLE bs).toNat * 2 ^ 8 < 2 ^ (8 * bs.length) * 2 ^ 8 := by omega
      _ = 2 ^ (8 * bs.length + 8) := (pow_add 2 _ _).symm
      _ ≤ 2 ^ 64 := Nat.pow_le_pow_right (by decide) (by omega)
  have low : b.toNat < 2 ^ 8 := b.isLt
  rw [wordOfBytesLE, BitVec.toNat_or, BitVec.toNat_setWidth_of_le (by decide), BitVec.toNat_shiftLeft,
    Nat.shiftLeft_eq, Nat.mod_eq_of_lt fits, Nat.or_comm, ← Nat.shiftLeft_eq,
    ← Nat.shiftLeft_add_eq_or_of_lt low, Nat.add_comm]

theorem wordOfBytesLE_lt {bs : List Byte} (short : bs.length ≤ 8) :
    (wordOfBytesLE bs).toNat < 2 ^ (8 * bs.length) := by
  induction bs with
  | nil => decide
  | cons b bs ih =>
    have bound := ih (Nat.le_of_succ_le short)
    have low : b.toNat < 2 ^ 8 := b.isLt
    rw [wordOfBytesLE_cons_toNat b short bound, List.length_cons, Nat.mul_succ, pow_add]
    omega

@[simp] theorem Memory.readBytes_length (m : Memory) (a : Word) (n : Nat) : (m.readBytes a n).length = n := by
  induction n generalizing a with
  | zero => rfl
  | succ n ih => simp [Memory.readBytes, ih]

/-- The value of up to 8 bytes of memory is the sum of R61. -/
theorem wordOfBytesLE_readBytes_toNat (m : Memory) (a : Word) {n : Nat} (short : n ≤ 8) :
    (wordOfBytesLE (m.readBytes a n)).toNat =
      ∑ i ∈ Finset.range n, (m.byteAt (a + BitVec.ofNat 64 i)).toNat * 2 ^ (8 * i) := by
  induction n generalizing a with
  | zero => rfl
  | succ n ih =>
    have shifted (i : Nat) : (m.byteAt (a + 1 + BitVec.ofNat 64 i)).toNat * 2 ^ (8 * i) * 2 ^ 8 =
        (m.byteAt (a + BitVec.ofNat 64 (i + 1))).toNat * 2 ^ (8 * (i + 1)) := by
      rw [add_one_add_ofNat, Nat.mul_assoc, ← pow_add, Nat.mul_succ]
    have length : (m.readBytes (a + 1) n).length = n := m.readBytes_length (a + 1) n
    rw [Memory.readBytes, wordOfBytesLE_cons_toNat _ (by omega) (wordOfBytesLE_lt (by omega)), ih _ (by omega),
      Finset.sum_range_succ', Finset.sum_mul, Finset.sum_congr rfl fun i _ => shifted i, Nat.add_comm]
    simp

/-- Byte i of a value is its bits 8i+7 : 8i. -/
theorem getElem_bytesOfWordLE (n : Nat) (v : Word) (i : Nat) (h : i < (bytesOfWordLE n v).length) :
    (bytesOfWordLE n v)[i] = v.extractLsb' (8 * i) 8 := by
  induction n generalizing v i with
  | zero => exact absurd h (Nat.not_lt_zero i)
  | succ n ih =>
    cases i with
    | zero => rfl
    | succ i =>
      simp only [bytesOfWordLE, List.getElem_cons_succ, ih]
      apply BitVec.eq_of_toNat_eq
      rw [BitVec.extractLsb'_toNat, BitVec.extractLsb'_toNat, BitVec.toNat_ushiftRight, ← Nat.shiftRight_add,
        Nat.mul_succ, Nat.add_comm]

/-! ## Reading what was stored -/

theorem toNat_add_ofNat_inj {a : Word} {i j : Nat} (hi : i < 2 ^ 64) (hj : j < 2 ^ 64)
    (h : (a + BitVec.ofNat 64 i).toNat = (a + BitVec.ofNat 64 j).toNat) : i = j := by
  rw [BitVec.toNat_add, BitVec.toNat_add, BitVec.toNat_ofNat, BitVec.toNat_ofNat] at h
  omega

/-- Each address of a run that does not wrap onto itself holds the byte written there. -/
theorem Memory.read?_writeBytes_inside (m : Memory) (a : Word) (bs : List Byte) (short : bs.length < 2 ^ 64) {i : Nat}
    (h : i < bs.length) : (m.writeBytes a bs).read? (a + BitVec.ofNat 64 i).toNat = some bs[i] := by
  induction bs generalizing m a i with
  | nil => exact absurd h (Nat.not_lt_zero i)
  | cons b bs ih =>
    cases i with
    | zero =>
      rw [Memory.writeBytes, Memory.read?_writeBytes_outside]
      · simp [Memory.read?_write_same]
      · intro j hj same
        rw [add_one_add_ofNat] at same
        have := toNat_add_ofNat_inj (by decide) (by simp at short; omega) same
        omega
    | succ i =>
      rw [Memory.writeBytes, ← add_one_add_ofNat]
      exact ih _ _ (Nat.lt_of_succ_lt short) (Nat.lt_of_succ_lt_succ h)

section
variable {s : State} (hd : Decided s) (a : Word) (v : Word)
include hd

/-- Byte i of a stored value, read back from its address. -/
theorem State.read?_store_inside {n i : Nat} (short : n < 2 ^ 64) (h : i < n) :
    (s.store a n v).mem.read? (a + BitVec.ofNat 64 i).toNat = some (v.extractLsb' (8 * i) 8) := by
  have little : bytesOfWord s.cfg.dec.endian n v = bytesOfWordLE n v := by
    rw [show s.cfg.dec = Decisions.decided from hd]
    rfl
  have length : (bytesOfWordLE n v).length = n := bytesOfWordLE_length n v
  rw [State.store_mem, little, Memory.read?_writeBytes_inside _ _ _ (by omega) (by omega), getElem_bytesOfWordLE]

theorem State.byteAt_store_inside {n i : Nat} (short : n < 2 ^ 64) (h : i < n) :
    (s.store a n v).mem.byteAt (a + BitVec.ofNat 64 i) = v.extractLsb' (8 * i) 8 := by
  rw [Memory.byteAt, State.read?_store_inside hd a v short h, Option.getD_some]

/-- Storing, then moving on, is the next state a store instruction has (R67, R123, R124). -/
theorem State.storedAt_store {n : Nat} (short : n < 2 ^ 64) : StoredAt s (s.store a n v).advance a n v := by
  refine ⟨fun i hi => ?inside, fun x hx => ?outside, fun x => ?record, rfl⟩
  case inside => exact State.read?_store_inside hd a v short hi
  case outside => exact Memory.read?_writeBytes_outside _ _ _ x (by rwa [bytesOfWord_length])
  case record => exact mem_markStored s.stored a n x

end

/-! ## Halfwords and octabytes -/

theorem wordOfBytesLE_readBytes_two (s : State) (a : Word) :
    wordOfBytesLE (s.mem.readBytes a 2) = (halfAt s a).zeroExtend 64 := by
  apply BitVec.eq_of_toNat_eq
  rw [wordOfBytesLE_readBytes_toNat _ _ (by decide), BitVec.toNat_setWidth_of_le (by decide), halfAt,
    toNat_append_eq_add]
  simp [Finset.sum_range_succ]
  omega

theorem wordOfBytesLE_readBytes_eight (s : State) (a : Word) : wordOfBytesLE (s.mem.readBytes a 8) = octaAt s a := by
  apply BitVec.eq_of_toNat_eq
  rw [wordOfBytesLE_readBytes_toNat _ _ (by decide), octaAt]
  simp only [toNat_append_eq_add]
  simp [Finset.sum_range_succ]
  omega

/-- The two low halfwords of 8 bytes of memory (R63). -/
theorem extractLsb'_octaAt (s : State) (a : Word) :
    (octaAt s a).extractLsb' 0 16 = halfAt s a ∧ (octaAt s a).extractLsb' 16 16 = halfAt s (a + 2) := by
  have next : a + 2 + 1 = a + 3 := BitVec.add_assoc a 2 1
  constructor <;> apply BitVec.eq_of_toNat_eq <;>
    simp only [toNat_extractLsb'_eq_div_mod, octaAt, halfAt, toNat_append_eq_add, next] <;> omega

/-! ## The device regions -/

theorem inCcd_iff (a : Nat) : inCcd a = true ↔ 0x1000 ≤ a ∧ a ≤ 0x3FFF := by
  simp only [inCcd, inClb, inCcr, Bool.or_eq_true, Bool.and_eq_true, decide_eq_true_eq]
  omega

theorem touchesCcd_iff (a : Word) (n : Nat) :
    touchesCcd a n = true ↔ ∃ i < n, inDevice (a + BitVec.ofNat 64 i) := by
  induction n generalizing a with
  | zero => simp [touchesCcd]
  | succ n ih =>
    rw [touchesCcd, Bool.or_eq_true, inCcd_iff, ih]
    constructor
    · rintro (here | ⟨i, hi, above⟩)
      · exact ⟨0, Nat.succ_pos n, by simpa [inDevice] using here⟩
      · exact ⟨i + 1, Nat.succ_lt_succ hi, by rwa [← add_one_add_ofNat]⟩
    · rintro ⟨i, hi, device⟩
      cases i with
      | zero => exact .inl (by simpa [inDevice] using device)
      | succ i => exact .inr ⟨i, Nat.lt_of_succ_lt_succ hi, by rwa [add_one_add_ofNat]⟩

/-- The device regions begin and end at multiples of 8, so an aligned access meets them only at its first byte. -/
theorem touchesCcd_aligned_iff {a : Word} {n : Nat} (width : n = 2 ∨ n = 8) (aligned : a.toNat % n = 0) :
    touchesCcd a n = true ↔ inDevice a := by
  have bound : a.toNat < 2 ^ 64 := a.isLt
  rw [touchesCcd_iff]
  constructor
  · rintro ⟨i, hi, device⟩
    rw [inDevice, BitVec.toNat_add, BitVec.toNat_ofNat] at device
    rw [inDevice]
    obtain rfl | rfl := width <;> omega
  · exact fun device => ⟨0, by omega, by simpa using device⟩

/-- Settles O18. -/
theorem deviceRegionsExistEverywhere : Obligations.DeviceRegionsExistEverywhere := by
  refine ⟨fun c a k low high => ?exist, fun n => ?control⟩
  case exist => rw [validByte, (inCcd_iff a).2 ⟨low, high⟩, Bool.true_or]
  case control =>
    have bound : n.toNat < 2 ^ 12 := n.isLt
    have address : coreControlAddress Decisions.decided n = 0x2000 + 2 * n.toNat := rfl
    simp only [address, inCcr, Bool.and_eq_true, decide_eq_true_eq, true_and]
    omega

/-! ## The checks of an access, in order -/

section
variable {c : Config} {a : Word} {n : Nat} {k : AccessKind}

/-- The widths at which an access is naturally aligned under the decided alignment (R64, R65, D11). -/
theorem width_of_natural (natural : requiredAlignment Decisions.decided.align n k = n) : n = 2 ∨ n = 8 := by
  by_cases half : n = 2
  · exact .inl half
  · cases k with
    | execute => exact .inl natural.symm
    | read | write => exact .inr (natural.symm.trans (if_neg half))

theorem natural_of_width (width : n = 2 ∨ n = 8) (data : k ≠ .execute) :
    requiredAlignment Decisions.decided.align n k = n := by
  cases k with
  | execute => exact absurd rfl data
  | read | write => obtain rfl | rfl := width <;> rfl

variable (dec : c.dec = Decisions.decided) (natural : requiredAlignment Decisions.decided.align n k = n)
include dec natural

theorem misaligned_decided : misaligned c.dec.align a n k = (a.toNat % n != 0) := by
  rw [misaligned, dec, natural]

theorem accessTrap_decided :
    accessTrap c a n k = if a.toNat % n != 0 then some (misalignedCause k)
      else if validPhys c a n k = false then some (invalidCause k) else none := by
  have order : c.dec.excPriority = .misalignedFirst := congrArg Decisions.excPriority dec
  simp only [accessTrap, order, misaligned_decided dec natural, translate_eq, Bool.not_eq_true']

theorem accessAbort_misaligned (odd : a.toNat % n ≠ 0) : accessAbort c a n k = some (.trap (misalignedCause k)) := by
  rw [accessAbort, accessTrap_decided dec natural, if_pos (bne_iff_ne.2 odd)]

variable (aligned : a.toNat % n = 0)
include aligned

theorem accessAbort_invalid (absent : validPhys c a n k = false) :
    accessAbort c a n k = some (.trap (invalidCause k)) := by
  rw [accessAbort, accessTrap_decided dec natural, if_neg (by simp [aligned]), if_pos absent]

variable (present : validPhys c a n k = true)
include present

theorem accessTrap_none : accessTrap c a n k = none := by
  rw [accessTrap_decided dec natural, if_neg (by simp [aligned]), if_neg (by simp [present])]

theorem accessAbort_device (device : inDevice a) : accessAbort c a n k = some (.unspecified (.deviceAccess k a)) := by
  have touched : touchesCcd a n = true := (touchesCcd_aligned_iff (width_of_natural natural) aligned).2 device
  simp only [accessAbort, accessTrap_none dec natural aligned present, translate_eq, ccdAccess_eq, touched, if_true]

variable (memory : ¬ inDevice a)
include memory

theorem accessAbort_multiCore (read : k ≠ .write) (several : c.nCores ≠ 1) :
    accessAbort c a n k = some (.unspecified .multiCoreUnmodelled) := by
  simp only [accessAbort, accessTrap_none dec natural aligned present, translate_eq, if_pos (And.intro read several),
    if_neg (mt (touchesCcd_aligned_iff (width_of_natural natural) aligned).1 memory)]

theorem accessAbort_none (performed : k = .write ∨ c.nCores = 1) : accessAbort c a n k = none := by
  have one : ¬ (k ≠ .write ∧ c.nCores ≠ 1) := by tauto
  simp only [accessAbort, accessTrap_none dec natural aligned present, translate_eq, if_neg one,
    if_neg (mt (touchesCcd_aligned_iff (width_of_natural natural) aligned).1 memory)]

end

/-! ## The three primitives, from what the checks answer -/

section
variable {s : State} {a : Word} {n : Nat}

theorem memRead_of_abort {e : Abort} (h : accessAbort s.cfg a n .read = some e) : memRead s a n = .error e := by
  rw [memRead, h]

theorem memRead_of_none (hd : Decided s) (h : accessAbort s.cfg a n .read = none) :
    memRead s a n = .ok (wordOfBytesLE (s.mem.readBytes a n)) := by
  rw [memRead, h, show s.cfg.dec = Decisions.decided from hd]
  rfl

theorem memWrite_of_abort {v : Word} {e : Abort} (h : accessAbort s.cfg a n .write = some e) :
    memWrite s a n v = .error e := by
  rw [memWrite, h]

theorem memWrite_of_none {v : Word} (h : accessAbort s.cfg a n .write = none) :
    memWrite s a n v = .ok (s.store a n v) := by
  rw [memWrite, h, translate_eq]

theorem fetch_of_abort {e : Abort} (h : accessAbort s.cfg a 2 .execute = some e) : fetch s a = .error e := by
  rw [fetch, h]

theorem fetch_of_refused (h : accessAbort s.cfg a 2 .execute = none) (refused : fetchRefused s a = true) :
    fetch s a = .error (.unspecified .fetchOfModifiedCode) := by
  simp only [fetch, h, translate_eq, refused, if_true]

theorem fetch_of_none (h : accessAbort s.cfg a 2 .execute = none) (accepted : fetchRefused s a = false) :
    fetch s a = parcelAt s a := by
  simp only [fetch, h, translate_eq, accepted, Bool.false_eq_true, if_false]

/-- Under the decided reading a fetch is refused when either of its bytes was stored to (R79, D37). -/
theorem fetchRefused_decided_iff (hd : Decided s) :
    fetchRefused s a = true ↔ a.toNat ∈ s.stored ∨ (a + 1).toNat ∈ s.stored := by
  have refused : s.cfg.dec.ifetch = .refused := congrArg Decisions.ifetch hd
  simp [fetchRefused, refused, anyStored]

theorem fetchRefused_decided_eq_false (hd : Decided s) (h0 : a.toNat ∉ s.stored) (h1 : (a + 1).toNat ∉ s.stored) :
    fetchRefused s a = false :=
  Bool.eq_false_iff.2 fun refused => ((fetchRefused_decided_iff hd).1 refused).elim h0 h1

theorem parcelAt_of_bytes (hd : Decided s) {b0 b1 : Byte} (h0 : s.mem.read? a.toNat = some b0)
    (h1 : s.mem.read? (a + 1).toNat = some b1) : parcelAt s a = .ok (b1 ++ b0) := by
  rw [parcelAt, h0, h1, show s.cfg.dec = Decisions.decided from hd]
  rfl

theorem parcelAt_of_unwritten (h : s.mem.read? a.toNat = none ∨ s.mem.read? (a + 1).toNat = none) :
    parcelAt s a = .error (.unspecified .uninitialisedRead) := by
  unfold parcelAt
  split
  · next h0 h1 => exact absurd h (by rw [h0, h1]; exact fun none => none.elim nofun nofun)
  · rfl

end

/-- Settles O13: the checks in order, then the sum of `wordOfBytesLE_readBytes_toNat`. -/
theorem loadChecksThenLittleEndianSum : Obligations.LoadChecksThenLittleEndianSum := by
  intro s a n hd one width
  have natural := natural_of_width (k := .read) width (by decide)
  refine ⟨fun odd => ?misaligned, fun aligned absent => ?invalid, fun aligned valid device => ?device,
    fun aligned valid memory => ⟨wordOfBytesLE (s.mem.readBytes a n), ?loaded, ?sum⟩⟩
  case misaligned => exact memRead_of_abort (accessAbort_misaligned hd natural odd)
  case invalid => exact memRead_of_abort (accessAbort_invalid hd natural aligned absent)
  case device => exact memRead_of_abort (accessAbort_device hd natural aligned valid device)
  case loaded => exact memRead_of_none hd (accessAbort_none hd natural aligned valid memory (.inr one))
  case sum => exact wordOfBytesLE_readBytes_toNat s.mem a (by omega)

/-- Settles O14: the checks in order, then the store of `State.storedAt_store`. -/
theorem storeChecksThenLittleEndianBytes : Obligations.StoreChecksThenLittleEndianBytes := by
  intro s a n v hd width
  have natural := natural_of_width (k := .write) width (by decide)
  refine ⟨fun odd => ?misaligned, fun aligned absent => ?invalid, fun aligned valid device => ?device,
    fun aligned valid memory => ⟨s.store a n v, ?stored, ?effect⟩⟩
  case misaligned => exact memWrite_of_abort (accessAbort_misaligned hd natural odd)
  case invalid => exact memWrite_of_abort (accessAbort_invalid hd natural aligned absent)
  case device => exact memWrite_of_abort (accessAbort_device hd natural aligned valid device)
  case stored => exact memWrite_of_none (accessAbort_none hd natural aligned valid memory (.inl rfl))
  case effect => exact State.storedAt_store hd a v (by omega)

/-- Settles O15: the checks in order, then the two bytes as a number. -/
theorem fetchChecksThenLittleEndianParcel : Obligations.FetchChecksThenLittleEndianParcel := by
  intro s a hd one
  have natural : requiredAlignment Decisions.decided.align 2 .execute = 2 := rfl
  have passed (aligned : a.toNat % 2 = 0) (valid : validPhys s.cfg a 2 .execute = true) (memory : ¬ inDevice a) :
      accessAbort s.cfg a 2 .execute = none := accessAbort_none hd natural aligned valid memory (.inr one)
  have accepted := fetchRefused_decided_eq_false (a := a) hd
  refine ⟨fun odd => ?misaligned, fun aligned absent => ?invalid, fun aligned valid device => ?device,
    fun aligned valid memory stored => ?modified,
    fun aligned valid memory h0 h1 => ⟨fun unwritten => ?unwritten, fun b0 b1 hb0 hb1 => ⟨b1 ++ b0, ?parcel, ?sum⟩⟩⟩
  case misaligned => exact fetch_of_abort (accessAbort_misaligned hd natural (by omega))
  case invalid => exact fetch_of_abort (accessAbort_invalid hd natural aligned absent)
  case device => exact fetch_of_abort (accessAbort_device hd natural aligned valid device)
  case modified => exact fetch_of_refused (passed aligned valid memory) ((fetchRefused_decided_iff hd).2 stored)
  case unwritten =>
    exact (fetch_of_none (passed aligned valid memory) (accepted h0 h1)).trans (parcelAt_of_unwritten unwritten)
  case parcel =>
    exact (fetch_of_none (passed aligned valid memory) (accepted h0 h1)).trans (parcelAt_of_bytes hd hb0 hb1)
  case sum =>
    rw [toNat_append_eq_add]
    omega

/-- Settles O17: a stored byte is recorded, and the fetch that meets it is refused. -/
theorem storedBytesAreNotFetched : Obligations.StoredBytesAreNotFetched := by
  intro s a p n i v hd one hi met aligned valid memory
  have hd' : Decided (s.store a n v) := hd
  have recorded : (a + BitVec.ofNat 64 i).toNat ∈ (s.store a n v).stored :=
    (mem_markStored s.stored a n _).2 (.inr ⟨i, hi, rfl⟩)
  refine fetch_of_refused (accessAbort_none hd rfl aligned valid memory (.inr one)) ?_
  rw [fetchRefused_decided_iff hd']
  obtain first | second := met
  · exact .inl (first ▸ recorded)
  · exact .inr (second ▸ recorded)

/-! ## Mixed widths (R63) -/

section
variable {s : State} (hd : Decided s) (a v : Word)
include hd

theorem halfAt_store {n k : Nat} (short : n < 2 ^ 64) (inside : 2 * k + 1 < n) :
    halfAt (s.store a n v) (a + BitVec.ofNat 64 (2 * k)) = v.extractLsb' (16 * k) 16 := by
  have next : a + BitVec.ofNat 64 (2 * k) + 1 = a + BitVec.ofNat 64 (2 * k + 1) := by
    rw [BitVec.add_assoc, BitVec.ofNat_add]
    rfl
  have low : 8 * (2 * k) = 16 * k := by omega
  have high : 8 * (2 * k + 1) = 16 * k + 8 := by omega
  rw [halfAt, next, State.byteAt_store_inside hd a v short inside,
    State.byteAt_store_inside hd a v short (Nat.lt_of_succ_lt inside), low, high]
  exact append_extractLsb'_of_eq rfl

end

theorem halfAt_store_outside (s : State) {a b : Word} {n : Nat} (v : Word)
    (first : ∀ i < n, a.toNat ≠ (b + BitVec.ofNat 64 i).toNat)
    (second : ∀ i < n, (a + 1).toNat ≠ (b + BitVec.ofNat 64 i).toNat) : halfAt (s.store b n v) a = halfAt s a := by
  simp only [halfAt, Memory.byteAt, State.store_mem]
  rw [Memory.read?_writeBytes_outside _ _ _ _ (by rwa [bytesOfWord_length]),
    Memory.read?_writeBytes_outside _ _ _ _ (by rwa [bytesOfWord_length])]

/-- Settles O16: halfwords of a stored value by `halfAt_store`; the second of two stored halfwords does not touch the
first, and `extractLsb'_octaAt` reads both out of the 8 bytes. -/
theorem mixedWidthsAgree : Obligations.MixedWidthsAgree := by
  intro s a hd one
  constructor
  · intro v k hk aligned memory writable readable
    have sum : (a + BitVec.ofNat 64 (2 * k)).toNat = a.toNat + 2 * k := by
      rw [BitVec.toNat_add, BitVec.toNat_ofNat]
      omega
    refine ⟨s.store a 8 v, memWrite_of_none (accessAbort_none hd rfl aligned writable memory (.inl rfl)), ?_⟩
    rw [memRead_of_none (s := s.store a 8 v) hd (accessAbort_none hd rfl (by omega) readable ?memory (.inr one)),
      wordOfBytesLE_readBytes_two, halfAt_store hd a v (by decide) (by omega)]
    case memory =>
      simp only [inDevice, sum] at memory ⊢
      omega
  · intro v u aligned memory low high readable
    have sum : (a + 2).toNat = a.toNat + 2 := by
      rw [BitVec.toNat_add]
      change (a.toNat + 2) % 2 ^ 64 = _
      omega
    have hd' : Decided (s.store a 2 v) := hd
    refine ⟨s.store a 2 v, (s.store a 2 v).store (a + 2) 2 u, _,
      memWrite_of_none (accessAbort_none hd rfl (by omega) low memory (.inl rfl)),
      memWrite_of_none (accessAbort_none hd rfl (by omega) high ?memory (.inl rfl)),
      memRead_of_none hd (accessAbort_none hd rfl aligned readable memory (.inr one)), ?_⟩
    case memory =>
      simp only [inDevice, sum] at memory ⊢
      omega
    rw [wordOfBytesLE_readBytes_eight, (extractLsb'_octaAt _ a).1, (extractLsb'_octaAt _ a).2]
    constructor
    · have apart (x : Word) (hx : x.toNat < a.toNat + 2) (i : Nat) (hi : i < 2) :
          x.toNat ≠ (a + 2 + BitVec.ofNat 64 i).toNat := by
        rw [BitVec.toNat_add, BitVec.toNat_ofNat, sum]
        omega
      rw [halfAt_store_outside _ _ (apart a (by omega)) (apart (a + 1) (by bv_omega))]
      simpa using halfAt_store hd a v (n := 2) (k := 0) (by decide) (by decide)
    · simpa using halfAt_store hd' (a + 2) u (n := 2) (k := 0) (by decide) (by decide)

end Sys2Proof.Machine
end

section
/-! PROOFS. The loads and stores at their encodings (R93, R120 to R124): each is its one access, with the traps and stops
of that access in order. -/

namespace Sys2Proof.Machine

/-! ## The effective address (R97, R99, R120) -/

theorem idrId_decided_toNat (k : Idr) : (idrId Decisions.decided k).toNat = 4 + k.toNat := by
  revert k
  decide

theorem idrId_decided_ne_zero (k : Idr) : idrId Decisions.decided k ≠ 0#5 := by
  revert k
  decide

section
variable {s : State} (hd : Decided s)
include hd

/-- The model's read of a base register is the register of the spec's own id. -/
theorem State.idr_eq_regIdr (k : Idr) : s.idr k = regIdr s k := by
  rw [State.idr, show s.cfg.dec = Decisions.decided from hd, State.readReg_of_ne_zero s (idrId_decided_ne_zero k)]
  simp only [State.regStorage, regIdr, idrId_decided_toNat]

theorem State.effectiveAddress_decided (off : BitVec 6) (ra : Idr) :
    s.effectiveAddress off ra = regIdr s ra + off.zeroExtend 64 := by
  rw [State.effectiveAddress, State.idr_eq_regIdr hd, show s.cfg.dec = Decisions.decided from hd]
  rfl

end

/-! ## Each instruction from what the checks of its access answer -/

section
variable {s : State} {ea : Word} {off : BitVec 6} {ra : Idr} (hd : Decided s)
  (address : ea = regIdr s ra + off.zeroExtend 64) (r : Hgp)
include hd address

theorem exec_ld_of_abort {e : Abort} (h : accessAbort s.cfg ea 2 .read = some e) :
    exec (.ld r off ra) s = abandon e s := by
  rw [exec, execLd, State.effectiveAddress_decided hd, ← address, memRead_of_abort h]

theorem exec_lo_of_abort {e : Abort} (h : accessAbort s.cfg ea 8 .read = some e) :
    exec (.lo r off ra) s = abandon e s := by
  rw [exec, execLo, State.effectiveAddress_decided hd, ← address, memRead_of_abort h]

theorem exec_sd_of_abort {e : Abort} (h : accessAbort s.cfg ea 2 .write = some e) :
    exec (.sd r off ra) s = abandon e s := by
  rw [exec, execSd, State.effectiveAddress_decided hd, ← address, memWrite_of_abort h]

theorem exec_so_of_abort {e : Abort} (h : accessAbort s.cfg ea 8 .write = some e) :
    exec (.so r off ra) s = abandon e s := by
  rw [exec, execSo, State.effectiveAddress_decided hd, ← address, memWrite_of_abort h]

/-- The decided reading zero-extends the loaded halfword, which is so already (D9). -/
theorem exec_ld_of_none (h : accessAbort s.cfg ea 2 .read = none) :
    exec (.ld r off ra) s = .next (putHgp s r ((halfAt s ea).zeroExtend 64)) := by
  have extended (old : Word) : extendHalfword Decisions.decided old ((halfAt s ea).zeroExtend 64) =
      (halfAt s ea).zeroExtend 64 := by
    change (((halfAt s ea).zeroExtend 64).extractLsb' 0 16).zeroExtend 64 = _
    rw [← BitVec.setWidth_eq_extractLsb' (by decide), BitVec.setWidth_setWidth_of_le _ (by decide),
      BitVec.setWidth_eq]
  rw [exec, execLd, State.effectiveAddress_decided hd, ← address, memRead_of_none hd h, wordOfBytesLE_readBytes_two,
    show s.cfg.dec = Decisions.decided from hd]
  exact congrArg Host.Outcome.next
    ((State.advance_setHgp_eq_putHgp hd r _).trans (congrArg (putHgp s r) (extended (s.hgp r))))

theorem exec_lo_of_none (h : accessAbort s.cfg ea 8 .read = none) :
    exec (.lo r off ra) s = .next (putHgp s r (octaAt s ea)) := by
  rw [exec, execLo, State.effectiveAddress_decided hd, ← address, memRead_of_none hd h,
    wordOfBytesLE_readBytes_eight]
  exact congrArg Host.Outcome.next (State.advance_setHgp_eq_putHgp hd r _)

theorem exec_sd_of_none (h : accessAbort s.cfg ea 2 .write = none) :
    exec (.sd r off ra) s = .next (s.store ea 2 (regHgp s r)).advance := by
  rw [exec, execSd, State.effectiveAddress_decided hd, ← address, memWrite_of_none h, State.hgp_eq_regHgp hd]

theorem exec_so_of_none (h : accessAbort s.cfg ea 8 .write = none) :
    exec (.so r off ra) s = .next (s.store ea 8 (regHgp s r)).advance := by
  rw [exec, execSo, State.effectiveAddress_decided hd, ← address, memWrite_of_none h, State.hgp_eq_regHgp hd]

end

/-- The traps and the stop of an instruction that is abandoned with its access, in the order of R207. -/
theorem abandoned_in_order {s : State} {o : Host.Outcome State Fault Refusal} {ea : Word} {n : Nat} {k : AccessKind}
    (hd : Decided s) (natural : requiredAlignment Decisions.decided.align n k = n)
    (abandoned : ∀ e, accessAbort s.cfg ea n k = some e → o = abandon e s) :
    (ea.toNat % n ≠ 0 → o = trapEntry (.internal (misalignedCause k)) s.pc s) ∧
    (ea.toNat % n = 0 → validPhys s.cfg ea n k = false → o = trapEntry (.internal (invalidCause k)) s.pc s) ∧
    (ea.toNat % n = 0 → validPhys s.cfg ea n k = true → inDevice ea → o = .fault (.deviceAccess k ea)) := by
  refine ⟨fun odd => ?misaligned, fun aligned absent => ?invalid, fun aligned present device => ?device⟩
  case misaligned => exact abandoned _ (accessAbort_misaligned hd natural odd)
  case invalid => exact abandoned _ (accessAbort_invalid hd natural aligned absent)
  case device => exact abandoned _ (accessAbort_device hd natural aligned present device)

/-- Settles O19: `decode_of_relIAcc_mask`, then `abandoned_in_order`, then the load. -/
theorem loadHalfwordRule : Obligations.LoadHalfwordRule := by
  rintro w masked rd ra off rfl rfl rfl
  refine ⟨decode_of_relIAcc_mask (op := 0b00) masked, fun s ea hd one address => ?_⟩
  obtain ⟨misaligned, invalid, device⟩ :=
    abandoned_in_order (n := 2) hd rfl fun e => exec_ld_of_abort hd address (w.extractLsb' 8 3) (e := e)
  refine ⟨misaligned, invalid, device, fun aligned present memory => ?loaded⟩
  exact exec_ld_of_none hd address _ (accessAbort_none hd rfl aligned present memory (.inr one))

/-- Settles O20: as O19, with 8 bytes. -/
theorem loadOctabyteRule : Obligations.LoadOctabyteRule := by
  rintro w masked rd ra off rfl rfl rfl
  refine ⟨decode_of_relIAcc_mask (op := 0b01) masked, fun s ea hd one address => ?_⟩
  obtain ⟨misaligned, invalid, device⟩ :=
    abandoned_in_order (n := 8) hd rfl fun e => exec_lo_of_abort hd address (w.extractLsb' 8 3) (e := e)
  refine ⟨misaligned, invalid, device, fun aligned present memory => ?loaded⟩
  exact exec_lo_of_none hd address _ (accessAbort_none hd rfl aligned present memory (.inr one))

/-- Settles O21: `decode_of_relIAcc_mask`, then `abandoned_in_order`, then the store of `State.storedAt_store`. -/
theorem storeHalfwordRule : Obligations.StoreHalfwordRule := by
  rintro w masked rs ra off rfl rfl rfl
  refine ⟨decode_of_relIAcc_mask (op := 0b10) masked, fun s ea hd address => ?_⟩
  obtain ⟨misaligned, invalid, device⟩ :=
    abandoned_in_order (n := 2) hd rfl fun e => exec_sd_of_abort hd address (w.extractLsb' 8 3) (e := e)
  refine ⟨misaligned, invalid, device, fun aligned present memory => ⟨_, ?stored, State.storedAt_store hd ea _ ?short⟩⟩
  case stored => exact exec_sd_of_none hd address _ (accessAbort_none hd rfl aligned present memory (.inl rfl))
  case short => decide

/-- Settles O22: as O21, with 8 bytes. -/
theorem storeOctabyteRule : Obligations.StoreOctabyteRule := by
  rintro w masked rs ra off rfl rfl rfl
  refine ⟨decode_of_relIAcc_mask (op := 0b11) masked, fun s ea hd address => ?_⟩
  obtain ⟨misaligned, invalid, device⟩ :=
    abandoned_in_order (n := 8) hd rfl fun e => exec_so_of_abort hd address (w.extractLsb' 8 3) (e := e)
  refine ⟨misaligned, invalid, device, fun aligned present memory => ⟨_, ?stored, State.storedAt_store hd ea _ ?short⟩⟩
  case stored => exact exec_so_of_none hd address _ (accessAbort_none hd rfl aligned present memory (.inl rfl))
  case short => decide

/-- Settles O58: the check that another core cannot write the bytes is the last one, and both loads meet it. -/
theorem multiCoreLoadsAndFetchesStop : Obligations.MultiCoreLoadsAndFetchesStop := by
  intro s a hd several memory
  have stops {n : Nat} {k : AccessKind} (natural : requiredAlignment Decisions.decided.align n k = n)
      (read : k ≠ .write) (aligned : a.toNat % n = 0) (present : validPhys s.cfg a n k = true) :
      accessAbort s.cfg a n k = some (.unspecified .multiCoreUnmodelled) :=
    accessAbort_multiCore hd natural aligned present memory read several
  refine ⟨fun n width aligned present => ?load, fun aligned present => ?fetch,
    fun rd off ra address => ⟨fun aligned present => ?ld, fun aligned present => ?lo⟩⟩
  case load => exact memRead_of_abort (stops (natural_of_width width (by decide)) (by decide) aligned present)
  case fetch => exact fetch_of_abort (stops rfl (by decide) aligned present)
  case ld => exact exec_ld_of_abort hd address rd (stops rfl (by decide) aligned present)
  case lo => exact exec_lo_of_abort hd address rd (stops rfl (by decide) aligned present)

end Sys2Proof.Machine
end

section
/-! PROOFS. The arithmetic of the two formats (R141 to R143): what the ARAcc and the AIAcc instructions write, at their
encodings and in exact arithmetic (R130 to R137, R150 to R156). -/

namespace Sys2Proof.Machine

/-! ## Division (R142) -/

/-- The two divisions that the decided reading gives no quotient: by zero, and -2^63 by -1. -/
theorem divisionCorner_decided_iff (n d : Word) :
    divisionCorner Decisions.decided.divMode n d = true ↔ d = 0#64 ∨ (n.toInt = -2 ^ 63 ∧ d.toInt = -1) := by
  have most : n = mostNegative ↔ n.toInt = -2 ^ 63 := BitVec.toInt_inj.symm
  have one : d = -1#64 ↔ d.toInt = -1 := BitVec.toInt_inj.symm
  change (d == 0#64 || (n == mostNegative && d == -1#64)) = true ↔ _
  rw [Bool.or_eq_true, Bool.and_eq_true, beq_iff_eq, beq_iff_eq, beq_iff_eq, most, one]

theorem divide_decided_corner {n d : Word} (corner : d = 0#64 ∨ (n.toInt = -2 ^ 63 ∧ d.toInt = -1)) :
    divide Decisions.decided n d = none := by
  rw [divide, if_pos ((divisionCorner_decided_iff n d).2 corner)]
  rfl

/-- Outside the corners the quotient rounded toward zero fits in 64 bits. -/
theorem divide_decided_quotient {n d : Word} (regular : ¬ (d = 0#64 ∨ (n.toInt = -2 ^ 63 ∧ d.toInt = -1))) :
    ∃ q, divide Decisions.decided n d = some q ∧ q.toInt = n.toInt.tdiv d.toInt := by
  refine ⟨BitVec.ofInt 64 (n.toInt.tdiv d.toInt), if_neg (mt (divisionCorner_decided_iff n d).1 regular), ?_⟩
  have noOverflow : n ≠ BitVec.intMin 64 ∨ d ≠ -1#64 := by
    by_contra overflow
    obtain ⟨rfl, rfl⟩ : n = BitVec.intMin 64 ∧ d = -1#64 := by tauto
    exact regular (by decide)
  rw [BitVec.toInt_ofInt, ← BitVec.toInt_sdiv, BitVec.toInt_sdiv_of_ne_or_ne n d noOverflow]

/-! ## Shifts (R143) -/

theorem shiftLeft_eq_ofNat (v : Word) (k : Nat) : v <<< k = BitVec.ofNat 64 (v.toNat * 2 ^ k) := by
  rw [← Nat.shiftLeft_eq]
  rfl

theorem ushiftRight_eq_ofNat (v : Word) (k : Nat) : v >>> k = BitVec.ofNat 64 (v.toNat / 2 ^ k) := by
  apply BitVec.eq_of_toNat_eq
  have bound : v.toNat / 2 ^ k < 2 ^ 64 := Nat.lt_of_le_of_lt (Nat.div_le_self _ _) v.isLt
  rw [BitVec.toNat_ushiftRight, Nat.shiftRight_eq_div_pow, BitVec.toNat_ofNat, Nat.mod_eq_of_lt bound]

/-! ## The ARAcc instructions -/

/-- The value an ARAcc instruction writes, from its opcode and the old values of its two registers; `none` for a division
with no quotient (R131 to R140). `exec_of_arAccOf` ties it to `exec`. -/
def arAccValue (op : BitVec 4) (x0 x1 : Word) : Option Word :=
  match op with
  | 0b0001#4 => some (x1 + x0)
  | 0b0010#4 => some (x1 - x0)
  | 0b0011#4 => some (x1 * x0)
  | 0b0100#4 => divide Decisions.decided x1 x0
  | 0b0101#4 => some (~~~ x0)
  | 0b0110#4 => some (x1 <<< (x0.toNat % 64))
  | 0b0111#4 => some (x1 >>> (x0.toNat % 64))
  | 0b1000#4 => some (x1 ^^^ x0)
  | 0b1001#4 => some (x1 &&& x0)
  | 0b1010#4 => some (x1 ||| x0)
  | _ => none

section
variable {s : State} (hd : Decided s) (r0 r1 : Hgp)
include hd

theorem exec_add : exec (.add r0 r1) s = .next (putHgp s r1 (regHgp s r1 + regHgp s r0)) :=
  congrArg Host.Outcome.next (State.araccResult_eq_putHgp hd (· + ·) r0 r1)

theorem exec_sub : exec (.sub r0 r1) s = .next (putHgp s r1 (regHgp s r1 - regHgp s r0)) :=
  congrArg Host.Outcome.next (State.araccResult_eq_putHgp hd (· - ·) r0 r1)

theorem exec_mulR : exec (.mulR r0 r1) s = .next (putHgp s r1 (regHgp s r1 * regHgp s r0)) :=
  congrArg Host.Outcome.next (State.araccResult_eq_putHgp hd (· * ·) r0 r1)

theorem exec_divR :
    exec (.divR r0 r1) s = putHgpOrStop s r1 (divide Decisions.decided (regHgp s r1) (regHgp s r0)) := by
  rw [exec, execDivR, show s.cfg.dec = Decisions.decided from hd, State.hgp_eq_regHgp hd, State.hgp_eq_regHgp hd]
  cases divide Decisions.decided (regHgp s r1) (regHgp s r0) with
  | none => rfl
  | some q => exact congrArg Host.Outcome.next (State.araccResult_eq_putHgp hd (fun _ _ => q) r0 r1)

/-- The decided reading is the complement of the first register (D15). -/
theorem exec_notR : exec (.notR r0 r1) s = .next (putHgp s r1 (~~~ regHgp s r0)) := by
  rw [exec, execNotR, show s.cfg.dec = Decisions.decided from hd]
  exact congrArg Host.Outcome.next (State.araccResult_eq_putHgp hd (fun _ x0 => ~~~ x0) r0 r1)

/-- The decided reading takes the low 6 bits of the amount (D17). -/
theorem exec_srlR : exec (.srlR r0 r1) s = .next (putHgp s r1 (regHgp s r1 <<< ((regHgp s r0).toNat % 64))) := by
  rw [exec, execSrlR, show s.cfg.dec = Decisions.decided from hd]
  exact congrArg Host.Outcome.next (State.araccResult_eq_putHgp hd (fun x1 x0 => x1 <<< (x0.toNat % 64)) r0 r1)

theorem exec_srrR : exec (.srrR r0 r1) s = .next (putHgp s r1 (regHgp s r1 >>> ((regHgp s r0).toNat % 64))) := by
  rw [exec, execSrrR, show s.cfg.dec = Decisions.decided from hd]
  exact congrArg Host.Outcome.next (State.araccResult_eq_putHgp hd (fun x1 x0 => x1 >>> (x0.toNat % 64)) r0 r1)

theorem exec_of_arAccOf {op : BitVec 4} {i : Instr} (h : arAccOf op r0 r1 = .ok i) :
    exec i s = putHgpOrStop s r1 (arAccValue op (regHgp s r0) (regHgp s r1)) := by
  unfold arAccOf at h
  split at h <;> cases h
  · exact exec_add hd r0 r1
  · exact exec_sub hd r0 r1
  · exact exec_mulR hd r0 r1
  · exact exec_divR hd r0 r1
  · exact exec_notR hd r0 r1
  · exact exec_srlR hd r0 r1
  · exact exec_srrR hd r0 r1
  · exact exec_xorR hd r0 r1
  · exact exec_andR hd r0 r1
  · exact exec_orR hd r0 r1

end

/-- Settles O23: reserved bits are refused first; a parcel that decodes has the function `arAccValue` of its opcode. -/
theorem arAccWritesItsSecondRegisterAlone : Obligations.ArAccWritesItsSecondRegisterAlone := by
  intro w size encoding
  have size : fieldSize w = Decisions.decided.sizeCode16 := size
  refine ⟨fun reserved => ⟨.araccReservedBits, fun s hd => ?refused⟩, fun i decoded =>
    ⟨arAccValue (fieldArOpcode w), fun s hd => ?written⟩⟩
  case refused =>
    have refuses : reservedBitsRefused Decisions.decided (fieldReserved w) = true := bne_iff_ne.2 reserved
    rw [executeParcel, show s.cfg.dec = Decisions.decided from hd, decode_arAcc_reserved size encoding refuses]
    rfl
  case written =>
    obtain ⟨other, -⟩ | ⟨-, -, selected⟩ | ⟨other, -⟩ := decode_ok_cases decoded
    · exact absurd (encoding.symm.trans other) (by decide)
    · exact exec_of_arAccOf hd (fieldReg0 w) (fieldReg1 w) selected
    · exact absurd (encoding.symm.trans other) (by decide)

theorem ofInt_toNat (x : Word) : BitVec.ofInt 64 x.toNat = x := by
  rw [BitVec.ofInt_natCast, BitVec.ofNat_toNat, BitVec.setWidth_eq]

theorem ofInt_sub (m n : Int) : BitVec.ofInt 64 (m - n) = BitVec.ofInt 64 m - BitVec.ofInt 64 n := by
  rw [Int.sub_eq_add_neg, BitVec.ofInt_add, BitVec.ofInt_neg, BitVec.sub_eq_add_neg]

/-- Settles O25: `BitVec.ofInt` carries the exact operations over, and gives an operand back under either reading. -/
theorem registerArithmeticKeepsTheLow64Bits : Obligations.RegisterArithmeticKeepsTheLow64Bits := by
  intro s A B hd
  refine ⟨_, _, _, exec_add hd A B, exec_sub hd A B, exec_mulR hd A B, ?_, ?_, ?_, ?_, ?_, ?_⟩ <;>
    simp only [BitVec.ofInt_add, ofInt_sub, BitVec.ofInt_mul, BitVec.ofInt_toInt, ofInt_toNat]

/-- Settles O26. -/
theorem registerDivisionRoundsTowardZero : Obligations.RegisterDivisionRoundsTowardZero := by
  rintro s A B n d hd rfl rfl
  refine ⟨fun nonzero noOverflow => ?quotient, fun corner => ?stop⟩
  case quotient =>
    obtain ⟨q, divides, quotient⟩ := divide_decided_quotient fun corner => corner.elim nonzero noOverflow
    exact ⟨q, by rw [exec_divR hd, divides]; rfl, quotient⟩
  case stop =>
    rw [exec_divR hd, divide_decided_corner corner]
    rfl

/-- Settles O27. -/
theorem notWritesTheComplementOfR0 : Obligations.NotWritesTheComplementOfR0 :=
  fun s A B hd => ⟨_, exec_notR hd A B, fun i hi => by rw [BitVec.getLsbD_not, decide_eq_true hi, Bool.true_and]⟩

/-- Settles O28. -/
theorem registerShiftsByTheLowSixBits : Obligations.RegisterShiftsByTheLowSixBits := by
  rintro s A B k hd rfl
  rw [exec_srlR hd, exec_srrR hd, shiftLeft_eq_ofNat, ushiftRight_eq_ofNat]
  exact ⟨rfl, rfl⟩

/-! ## The AIAcc instructions -/

theorem ofInt_toNat_imm (imm : BitVec 6) : BitVec.ofInt 64 imm.toNat = immUnsigned imm := by
  rw [BitVec.ofInt_natCast, BitVec.ofNat_toNat, immUnsigned]

theorem ofInt_toInt_imm (imm : BitVec 6) : BitVec.ofInt 64 imm.toInt = immSigned imm := rfl

theorem immSigned_toInt (imm : BitVec 6) : (immSigned imm).toInt = imm.toInt :=
  BitVec.toInt_signExtend_of_le (by decide)

theorem immSigned_eq_zero_iff (imm : BitVec 6) : immSigned imm = 0#64 ↔ imm = 0#6 := by
  rw [← BitVec.toInt_inj, immSigned_toInt, ← BitVec.toInt_inj]
  rfl

/-- Settles O31: as O25, with the immediate as its number. -/
theorem immediateArithmeticKeepsTheLow64Bits : Obligations.ImmediateArithmeticKeepsTheLow64Bits := by
  intro s D imm hd
  simp only [BitVec.ofInt_add, BitVec.ofInt_mul, BitVec.ofInt_toInt, ofInt_toNat_imm, ofInt_toInt_imm]
  exact ⟨exec_addiu hd D imm, exec_addi hd D imm, exec_mulI hd D imm⟩

/-- Settles O32: as O26, with the sign-extended immediate as divisor. -/
theorem immediateDivisionRoundsTowardZero : Obligations.ImmediateDivisionRoundsTowardZero := by
  rintro s D imm n hd rfl
  rw [← immSigned_eq_zero_iff, ← immSigned_toInt, Ne, ← immSigned_eq_zero_iff]
  refine ⟨fun nonzero noOverflow => ?quotient, fun corner => ?stop⟩
  case quotient =>
    obtain ⟨q, divides, quotient⟩ := divide_decided_quotient fun corner => corner.elim nonzero noOverflow
    exact ⟨q, by rw [exec_divI hd, divides]; rfl, quotient⟩
  case stop =>
    rw [exec_divI hd, divide_decided_corner corner]
    rfl

/-- Settles O33. -/
theorem immediateShiftsByTheUnsignedImmediate : Obligations.ImmediateShiftsByTheUnsignedImmediate := by
  intro s D imm hd
  rw [exec_srlI hd, exec_srrI hd, shiftLeft_eq_ofNat, ushiftRight_eq_ofNat]
  exact ⟨rfl, rfl⟩

/-! ## Under every setting of the parameters -/

/-- Writing back what a register reads changes nothing: register 0 outside a trap discards it. -/
theorem State.writeReg_readReg (s : State) (r : RegId) : s.writeReg r (s.readReg r) = s := by
  unfold State.writeReg State.readReg State.regStorage
  split
  · rfl
  · rw [Vector.set_getElem_self]

theorem State.setHgp_hgp (s : State) (k : Hgp) : s.setHgp k (s.hgp k) = s :=
  s.writeReg_readReg _

/-- Settles O34: each writes back what the register reads. -/
theorem idleInstructionsChangeOnlyThePc : Obligations.IdleInstructionsChangeOnlyThePc := by
  intro s k
  have idle {v : Word} (same : v = s.hgp k) : Host.Outcome.next (φ := Fault) (ρ := Refusal) (s.setHgp k v).advance =
      .next s.advance := by rw [same, State.setHgp_hgp]
  exact ⟨idle (BitVec.add_zero _), idle (BitVec.add_zero _), idle BitVec.or_self, idle BitVec.and_self⟩

theorem divide_freeValue {p : Decisions} (free : p.div0 = .freeValue) (n d : Word) : ∃ q, divide p n d = some q := by
  unfold divide
  split
  · exact ⟨_, by rw [free]⟩
  · exact ⟨_, rfl⟩

/-- Settles O35. -/
theorem freeQuotientsNeverStop : Obligations.FreeQuotientsNeverStop := by
  intro s A B imm free
  constructor
  · obtain ⟨q, divides⟩ := divide_freeValue free (s.hgp B) (s.hgp A)
    exact ⟨q, by rw [exec, execDivR, divides]; rfl⟩
  · obtain ⟨q, divides⟩ := divide_freeValue free (s.hgp B) (immSigned imm)
    exact ⟨q, by rw [exec, execDivI, divides]; rfl⟩

end Sys2Proof.Machine
end

section
/-! PROOFS. Traps and interrupts (R200 to R217), and how a step runs the instruction at `pc` (R200). -/

namespace Sys2Proof.Machine

/-! ## The cause table (R201, R211) -/

/-- The twelve causes in the order of the table. `causesInOrder_causeRow` ties it to the model's rows. -/
def causesInOrder : Vector Cause 12 :=
  #v[.external .msi, .external .timer, .external .extDev, .internal .misalignedInstr, .internal .misalignedRead,
    .internal .misalignedWrite, .internal .invalidInstr, .internal .invalidRead, .internal .invalidWrite,
    .internal .instrPageFault, .internal .readPageFault, .internal .writePageFault]

theorem causesInOrder_causeRow (c : Cause) : causesInOrder.get (causeRow c) = c := by
  cases c with
  | external c => cases c <;> rfl
  | internal c => cases c <;> rfl

theorem causeRow_injective {c e : Cause} (h : causeRow c = causeRow e) : c = e := by
  rw [← causesInOrder_causeRow c, h, causesInOrder_causeRow]

/-- Settles O59: the table has no value twice, so equal values stand in one row, and rows tell the causes apart. -/
theorem scauseEncodingIsInjective : Obligations.ScauseEncodingIsInjective := by
  intro d c e h
  have row : (causeRow c).val = (causeRow e).val :=
    (List.Nodup.getElem_inj_iff d.scauseTable.injective (hi := by simp) (hj := by simp)).1 h
  exact causeRow_injective (Fin.ext row)

theorem scauseEncode_decided (c : Cause) : scauseEncode Decisions.decided c = causeNumber c + causeSource c := by
  cases c with
  | external c => cases c <;> rfl
  | internal c => cases c <;> rfl

/-- Settles O39. -/
theorem causeTableIsInjective : Obligations.CauseTableIsInjective :=
  ⟨rfl, scauseEncode_decided, scauseEncodingIsInjective Decisions.decided⟩

theorem scauseEncode_decided_toNat (c : Cause) :
    (scauseEncode Decisions.decided c).toNat = (causeNumber c).toNat + (causeSource c).toNat := by
  cases c with
  | external c => cases c <;> rfl
  | internal c => cases c <;> rfl

/-! ## The handler address (R213) -/

/-- Under the decided reading bit 63 of the handler address is 0 (D28). -/
theorem handlerAddress_decided_toNat (strap : Word) :
    (handlerAddress Decisions.decided strap).toNat = strap.toNat % 2 ^ 63 := by
  change (0b0#1 ++ strap.extractLsb' 0 63).toNat = _
  rw [toNat_append_eq_add, toNat_extractLsb'_eq_div_mod]
  simp

/-- Bit 0 of the handler address is that of `strap` under both readings of bit 63. -/
theorem handlerAddress_getLsbD_zero (d : Decisions) (strap : Word) :
    (handlerAddress d strap).getLsbD 0 = strap.getLsbD 0 := by
  have low (bit63 : BitVec 1) : (bit63 ++ strap.extractLsb' 0 63).getLsbD 0 = strap.getLsbD 0 := by
    rw [BitVec.getLsbD_append, if_pos (by decide), BitVec.getLsbD_extractLsb']
    rfl
  unfold handlerAddress
  split <;> exact low _

/-! ## Taking a trap (R210 to R217) -/

theorem trapEntry_of_on {s : State} (on : s.strap.getLsbD 63 = true) (c : Cause) (epc : Word) :
    trapEntry c epc s = .next (s.enterTrap c epc) :=
  if_pos on

/-- Under the decided reading `sret` receives the `pc` of the trap, of any source (D27). -/
theorem sretOf_decided (c : Cause) (epc : Word) : sretOf Decisions.decided c epc = epc := by
  cases c <;> rfl

/-- The whole state that a trap enters under the decided parameters. -/
theorem State.enterTrap_decided {s : State} (hd : Decided s) (c : Cause) (epc : Word) :
    s.enterTrap c epc =
      { s with scause := scauseEncode Decisions.decided c, sret := epc, flags := { trap := true }, mode := .supervisor,
               pc := handlerAddress Decisions.decided s.strap } := by
  rw [State.enterTrap, show s.cfg.dec = Decisions.decided from hd, sretOf_decided]
  rfl

/-- Settles O40. -/
theorem trapEntrySavesCauseAndPc : Obligations.TrapEntrySavesCauseAndPc :=
  fun _ c epc hd on => ⟨_, _, (trapEntry_of_on on c epc).trans (congrArg _ (State.enterTrap_decided hd c epc)),
    scauseEncode_decided_toNat c, handlerAddress_decided_toNat _⟩

/-- Settles O41. -/
theorem trapWhileDisabledStopsTheCore : Obligations.TrapWhileDisabledStopsTheCore :=
  fun s _ _ off => ⟨s.stop, if_neg (Bool.eq_false_iff.1 off), rfl, rfl⟩

/-- Settles O42: a second trap writes every field that the first wrote, and reads none of them. -/
theorem nestedTrapOverwritesTheFirst : Obligations.NestedTrapOverwritesTheFirst := by
  intro s c e p q on
  have onAfter : (s.enterTrap c p).strap.getLsbD 63 = true := on
  rw [trapEntry_of_on on, trapEntry_of_on onAfter]
  rfl

/-- An access reports the cause of its kind, misaligned or invalid, in either order of priority (R202, R207). -/
theorem accessTrap_cases {c : Config} {a : Word} {n : Nat} {k : AccessKind} {t : IntCause}
    (h : accessTrap c a n k = some t) : t = misalignedCause k ∨ t = invalidCause k := by
  unfold accessTrap at h
  split at h
  case h_1 misalignedFirst => grind
  case h_2 invalidFirst => grind

/-- Settles O43. -/
theorem accessesRaiseTheirOwnCausesOnly : Obligations.AccessesRaiseTheirOwnCausesOnly := by
  intro c a n k t h
  refine ⟨?_, ?_, ?_⟩ <;> rintro rfl <;> exact accessTrap_cases h

/-- Settles O11: the two cases of a write, and the trap bit that any entry sets. -/
theorem registerZeroIsScratchInTrapsOnly : Obligations.RegisterZeroIsScratchInTrapsOnly := by
  intro s v c epc
  refine ⟨fun inTrap => ?kept, s.writeReg_zero_discarded v, ?afterEntry⟩
  case kept =>
    have reads := s.readReg_writeReg_same 0#5 v (.inr inTrap)
    rw [State.readReg_zero, State.writeReg_flags, if_pos inTrap] at reads
    rw [State.readReg_zero, State.writeReg_flags, if_pos inTrap]
    exact ⟨reads, reads⟩
  case afterEntry => exact (s.enterTrap c epc).readReg_zero

/-! ## Pending bits and the boundary (R200 step 1, R205) -/

@[simp] theorem Pending.get_union (p q : Pending) (c : ExtCause) : (p.union q).get c = (p.get c || q.get c) := by
  cases c <;> rfl

theorem Pending.get_clear (p : Pending) (c e : ExtCause) : (p.clear c).get e = if e = c then false else p.get e := by
  cases c <;> cases e <;> rfl

section
variable {s : State} {b : Boundary} {rest : List Boundary} (env : s.env = b :: rest)
include env

theorem State.atBoundary_of_cons : s.atBoundary = { s with pending := s.pending.union b.raise, env := rest } := by
  rw [State.atBoundary, env]

theorem State.interruptTaken_of_pending {c : ExtCause} (take : b.take = some c)
    (pending : s.pending.get c = true ∨ b.raise.get c = true) : s.interruptTaken = some c := by
  simp only [State.interruptTaken, env, take, Pending.get_union, Bool.or_eq_true, if_pos pending]

theorem State.interruptTaken_of_not_pending
    (absent : ∀ c, b.take = some c → s.pending.get c = false ∧ b.raise.get c = false) : s.interruptTaken = none := by
  simp only [State.interruptTaken, env]
  cases take : b.take with
  | none => rfl
  | some c =>
    obtain ⟨before, raised⟩ := absent c take
    simp [before, raised]

end

theorem step_of_taken {s : State} {c : ExtCause} (running : s.runState = .running) (taken : s.interruptTaken = some c) :
    step s = takeInterrupt c s.atBoundary := by
  rw [step, cycle, running, taken]

theorem step_of_not_taken {s : State} (running : s.runState = .running) (taken : s.interruptTaken = none) :
    step s = runInstruction s.atBoundary := by
  rw [step, cycle, running, taken]

/-- Settles O44: the step is the trap of O40, from the state past the boundary with the pending bit cleared. -/
theorem pendingInterruptIsTakenAtTheBoundary : Obligations.PendingInterruptIsTakenAtTheBoundary := by
  intro s b rest c hd running env take pending on
  refine ⟨scauseEncode Decisions.decided (.external c), handlerAddress Decisions.decided s.strap,
    (s.pending.union b.raise).clear c, ?step, scauseEncode_decided_toNat (.external c),
    handlerAddress_decided_toNat s.strap, fun e => ?bits⟩
  case step =>
    rw [step_of_taken running (State.interruptTaken_of_pending env take pending), State.atBoundary_of_cons env,
      takeInterrupt, trapEntry_of_on (by exact on), State.enterTrap_decided (by exact hd)]
  case bits => rw [Pending.get_clear, Pending.get_union]

/-- Settles O45. -/
theorem nothingPendingNothingTaken : Obligations.NothingPendingNothingTaken := by
  intro s running
  refine ⟨fun env => ?past, fun b rest env absent => ?not_pending⟩
  case past =>
    have taken : s.interruptTaken = none := by rw [State.interruptTaken, env]
    have boundary : s.atBoundary = s := by rw [State.atBoundary, env]
    rw [step_of_not_taken running taken, boundary]
  case not_pending =>
    rw [step_of_not_taken running (State.interruptTaken_of_not_pending env absent), State.atBoundary_of_cons env]

/-! ## Running the instruction at `pc` (R200 steps 2 to 4) -/

theorem fetch_of_ready {s : State} {b0 b1 : Byte} (hd : Decided s) (ready : FetchReady s b0 b1) :
    fetch s s.pc = .ok (b1 ++ b0) := by
  obtain ⟨one, aligned, present, memory, byte0, byte1, unstored0, unstored1⟩ := ready
  rw [fetch_of_none (accessAbort_none hd rfl aligned present memory (.inr one))
    (fetchRefused_decided_eq_false hd unstored0 unstored1), parcelAt_of_bytes hd byte0 byte1]

/-- Nothing that a fetch reads changes at the boundary. -/
theorem FetchReady.atBoundary {s : State} {b0 b1 : Byte} (ready : FetchReady s b0 b1) :
    FetchReady s.atBoundary b0 b1 := by
  simpa [FetchReady] using ready

theorem Decided.atBoundary {s : State} (hd : Decided s) : Decided s.atBoundary := by
  rw [Decided, State.atBoundary_cfg]
  exact hd

/-- Where no interrupt is taken and the fetch answers, the step is the execution of its parcel. -/
theorem step_eq_executeParcel {s : State} {b0 b1 : Byte} (hd : Decided s) (running : s.runState = .running)
    (taken : s.interruptTaken = none) (ready : FetchReady s b0 b1) :
    step s = executeParcel (b1 ++ b0) s.atBoundary := by
  rw [step_of_not_taken running taken, runInstruction, fetch_of_ready hd.atBoundary ready.atBoundary]

/-- Settles O46. -/
theorem stepRunsTheDecodedInstruction : Obligations.StepRunsTheDecodedInstruction := by
  intro s b0 b1 i hd running taken ready decoded
  rw [step_eq_executeParcel hd running taken ready, executeParcel,
    show s.atBoundary.cfg.dec = Decisions.decided from hd.atBoundary, decoded]

/-- Settles O47. -/
theorem unassignedParcelStopsTheStep : Obligations.UnassignedParcelStopsTheStep := by
  intro s b0 b1 r hd running taken ready refused
  rw [step_eq_executeParcel hd running taken ready, executeParcel,
    show s.atBoundary.cfg.dec = Decisions.decided from hd.atBoundary, refused]
  rfl

/-! ## An odd handler address (R213, U30) -/

/-- A core at its odd handler address, with trapping on. -/
structure AtOddHandler (s : State) : Prop where
  decided : Decided s
  running : s.runState = .running
  on : s.strap.getLsbD 63 = true
  odd : s.strap.getLsbD 0 = true
  pc : s.pc = handlerAddress Decisions.decided s.strap

theorem getLsbD_zero_eq_odd (a : Word) : a.getLsbD 0 = decide (a.toNat % 2 = 1) :=
  Nat.testBit_zero a.toNat

/-- The step is a trap: an interrupt, or else the misaligned fetch. -/
theorem AtOddHandler.step_traps {s : State} (h : AtOddHandler s) :
    ∃ p e cause, step s = .next (State.enterTrap { s with pending := p, env := e } cause s.pc) := by
  cases taken : s.interruptTaken with
  | some c =>
    refine ⟨s.atBoundary.pending.clear c, s.atBoundary.env, .external c, ?_⟩
    rw [step_of_taken h.running taken, atBoundary_eq s, takeInterrupt]
    exact trapEntry_of_on (by exact h.on) _ _
  | none =>
    have odd : s.pc.toNat % 2 ≠ 0 := by
      have bit0 : s.pc.getLsbD 0 = true := by rw [h.pc, handlerAddress_getLsbD_zero, h.odd]
      rw [getLsbD_zero_eq_odd, decide_eq_true_eq] at bit0
      omega
    have failed : fetch s.atBoundary s.atBoundary.pc = .error (.trap .misalignedInstr) :=
      fetch_of_abort (accessAbort_misaligned h.decided.atBoundary rfl (by rwa [State.atBoundary_pc]))
    refine ⟨s.atBoundary.pending, s.atBoundary.env, .internal .misalignedInstr, ?_⟩
    rw [step_of_not_taken h.running taken, runInstruction, failed, atBoundary_eq s]
    exact trapEntry_of_on (by exact h.on) _ _

theorem AtOddHandler.enterTrap {s : State} (h : AtOddHandler s) (p : Pending) (e : List Boundary) (cause : Cause) :
    AtOddHandler (State.enterTrap { s with pending := p, env := e } cause s.pc) where
  decided := h.decided
  running := h.running
  on := h.on
  odd := h.odd
  pc := congrArg (handlerAddress · s.strap) h.decided

theorem core_run_of_next {s t : State} (h : step s = .next t) (k : Nat) :
    Sys2Proof.core.run (k + 1) s = Sys2Proof.core.run k t := by
  have first : Sys2Proof.core.step s = .next t := h
  simp only [Host.Core.run, first]

theorem AtOddHandler.run {s : State} (h : AtOddHandler s) (k : Nat) :
    ∃ t, Sys2Proof.core.run k s = .next t ∧ t.pc = s.pc ∧ t.regs = s.regs ∧ t.mem = s.mem := by
  induction k generalizing s with
  | zero => exact ⟨s, rfl, rfl, rfl, rfl⟩
  | succ k ih =>
    obtain ⟨p, e, cause, trapped⟩ := h.step_traps
    obtain ⟨t, ran, pc, regs, mem⟩ := ih (h.enterTrap p e cause)
    have samePc : handlerAddress s.cfg.dec s.strap = s.pc := by
      rw [show s.cfg.dec = Decisions.decided from h.decided, h.pc]
    exact ⟨t, (core_run_of_next trapped k).trans ran, pc.trans samePc, regs, mem⟩

/-- Settles O48: by `AtOddHandler.run`. -/
theorem oddHandlerAddressTrapsForEver : Obligations.OddHandlerAddressTrapsForEver := by
  intro s k hd running on odd pc
  have handler : s.pc = handlerAddress Decisions.decided s.strap :=
    BitVec.eq_of_toNat_eq (pc.trans (handlerAddress_decided_toNat s.strap).symm)
  exact AtOddHandler.run ⟨hd, running, on, odd, handler⟩ k

end Sys2Proof.Machine
end

section
/-! PROOFS. What a step can do, as one list of effects (R200), and the invariants of every step that follow from it. -/

namespace Sys2Proof.Machine

/-! ## The effects of a step -/

/-- What a step with a next state can have done to the state past the boundary: written HGP registers or stored bytes and
moved on, or entered a trap with the old `pc` (R120, R130, R150, R200). `step_effect` ties it to `step`. -/
inductive Effect (s : State) : State → Prop where
  | writesOne (k : Hgp) (v : Word) : Effect s (s.setHgp k v).advance
  | writesTwo (k : Hgp) (v : Word) (k' : Hgp) (v' : Word) : Effect s ((s.setHgp k v).setHgp k' v').advance
  | stores (a : Word) (n : Nat) (v : Word) : Effect s (s.store a n v).advance
  | traps (c : Cause) (on : s.strapOn = true) : Effect s (s.enterTrap c s.pc)

theorem exec_effect {i : Instr} {s t : State} (h : exec i s = .next t) : Effect s t := by
  obtain ⟨k, v, rfl⟩ | ⟨k, v, k', v', rfl⟩ | ⟨a, n, v, -, rfl⟩ | ⟨c, on, rfl⟩ := exec_next h
  · exact .writesOne k v
  · exact .writesTwo k v k' v'
  · exact .stores a n v
  · exact .traps (.internal c) on

theorem runInstruction_effect {s t : State} (h : runInstruction s = .next t) : Effect s t := by
  obtain ⟨w, i, -, -, hi⟩ | ⟨c, -, on, rfl⟩ := runInstruction_next h
  · exact exec_effect hi
  · exact .traps (.internal c) on

/-- The boundary changes only what is pending and what is still to come; the rest of the step is one effect. -/
theorem step_effect {s t : State} (h : step s = .next t) :
    s.runState = .running ∧ ∃ p e, Effect { s with pending := p, env := e } t := by
  obtain ⟨running, ⟨c, -, on, rfl⟩ | ⟨-, ran⟩⟩ := step_next h
  · refine ⟨running, s.atBoundary.pending.clear c, s.atBoundary.env, ?_⟩
    rw [atBoundary_eq s]
    exact .traps (.external c) on
  · rw [atBoundary_eq s] at ran
    exact ⟨running, _, _, runInstruction_effect ran⟩

/-! ## The invariant -/

/-- After a run of bytes is written, an address holds a value if it did before or is one of the run's. -/
theorem Memory.isSome_read?_writeBytes (m : Memory) (a : Word) (bs : List Byte) (x : Nat)
    (h : (m.read? x).isSome = true ∨ ∃ i < bs.length, x = (a + BitVec.ofNat 64 i).toNat) :
    ((m.writeBytes a bs).read? x).isSome = true := by
  induction bs generalizing m a with
  | nil => exact h.resolve_right fun ⟨i, hi, _⟩ => absurd hi (Nat.not_lt_zero i)
  | cons b bs ih =>
    refine ih (m.write a.toNat b) (a + 1) ?_
    rw [Memory.read?_write]
    obtain old | ⟨i, hi, rfl⟩ := h
    · left
      split
      · rfl
      · exact old
    · cases i with
      | zero => exact .inl (by simp)
      | succ i => exact .inr ⟨i, Nat.lt_of_succ_lt_succ hi, by rw [add_one_add_ofNat]⟩

/-- The invariant speaks of five fields only. -/
theorem State.Inv.of_same_fields {s t : State} (inv : s.Inv) (mem : t.mem = s.mem) (stored : t.stored = s.stored)
    (runState : t.runState = s.runState) (flags : t.flags = s.flags) (mode : t.mode = s.mode) : t.Inv where
  memory := mem ▸ inv.memory
  storedRising := stored ▸ inv.storedRising
  storedListed := by rw [mem, stored]; exact inv.storedListed
  running := runState ▸ inv.running
  trapMode := by rw [flags, mode]; exact inv.trapMode

/-- What is stored is recorded, and what is recorded was stored. -/
theorem State.Inv.store {s : State} (inv : s.Inv) (a : Word) (n : Nat) (v : Word) : (s.store a n v).Inv where
  memory := s.store_mem_wf a n v inv.memory
  storedRising := markStored_rising s.stored a n inv.storedRising
  storedListed := by
    intro x hx
    apply Memory.isSome_read?_writeBytes
    rw [bytesOfWord_length]
    exact ((mem_markStored s.stored a n x).1 hx).imp_left (inv.storedListed x)
  running := inv.running
  trapMode := inv.trapMode

theorem State.Inv.enterTrap {s : State} (inv : s.Inv) (c : Cause) (epc : Word) : (s.enterTrap c epc).Inv where
  memory := inv.memory
  storedRising := inv.storedRising
  storedListed := inv.storedListed
  running := inv.running
  trapMode := fun _ => rfl

theorem Effect.inv {s t : State} (effect : Effect s t) (inv : s.Inv) : t.Inv := by
  cases effect with
  | writesOne k v => exact inv.of_same_fields (by simp) (by simp) (by simp) (by simp) (by simp)
  | writesTwo k v k' v' => exact inv.of_same_fields (by simp) (by simp) (by simp) (by simp) (by simp)
  | stores a n v => exact (inv.store a n v).of_same_fields rfl rfl rfl rfl rfl
  | traps c on => exact inv.enterTrap c s.pc

/-- Settles O49: the boundary leaves the fields the invariant speaks of, and each effect keeps it. -/
theorem stepKeepsTheInvariant : Obligations.StepKeepsTheInvariant := by
  intro s t inv h
  obtain ⟨-, p, e, effect⟩ := step_effect h
  exact effect.inv (inv.of_same_fields rfl rfl rfl rfl rfl)

theorem State.launch_inv (c : Config) : (State.launch c).Inv where
  memory := ⟨.nil, nofun⟩
  storedRising := by simp
  storedListed := by simp
  running := rfl
  trapMode := nofun

/-- Settles O50: reset is a launch. -/
theorem resetMeetsTheInvariant : Obligations.ResetMeetsTheInvariant :=
  State.launch_inv Config.atReset

/-- Settles O60. -/
theorem everyLaunchMeetsTheInvariant : Obligations.EveryLaunchMeetsTheInvariant :=
  fun c => ⟨rfl, rfl, rfl, State.launch_inv c⟩

/-! ## What no step changes, and the flow of control -/

theorem getLsbD_zero_add_two (a : Word) : (a + 2).getLsbD 0 = a.getLsbD 0 := by
  rw [getLsbD_zero_eq_odd, getLsbD_zero_eq_odd, BitVec.toNat_add, decide_eq_decide]
  change (a.toNat + 2) % 2 ^ 64 % 2 = 1 ↔ _
  omega

/-- The main registers no HGP field names (R99). -/
theorem State.setHgp_getElem_of_outside {s : State} (hd : Decided s) (k : Hgp) (v : Word) {r : Nat} (bound : r < 32)
    (outside : r < 8 ∨ 16 ≤ r) : (s.setHgp k v).regs[r] = s.regs[r] := by
  have regs : (s.setHgp k v).regs = s.regs.set (8 + k.toNat) v (by omega) :=
    congrArg State.regs (State.advance_setHgp_eq_putHgp hd k v)
  rw [regs]
  exact Vector.getElem_set_ne _ _ (by omega)

theorem Decided.setHgp {s : State} (hd : Decided s) (k : Hgp) (v : Word) : Decided (s.setHgp k v) := by
  rw [Decided, State.setHgp_cfg]
  exact hd

theorem Effect.other_registers {s t : State} (effect : Effect s t) (hd : Decided s) {r : Nat} (bound : r < 32)
    (outside : r < 8 ∨ 16 ≤ r) : t.regs[r] = s.regs[r] := by
  cases effect with
  | writesOne k v => exact State.setHgp_getElem_of_outside hd k v bound outside
  | writesTwo k v k' v' =>
    exact (State.setHgp_getElem_of_outside (hd.setHgp k v) k' v' bound outside).trans
      (State.setHgp_getElem_of_outside hd k v bound outside)
  | stores => rfl
  | traps => rfl

/-- The fields that no step touches, whatever the parameters are, and the two it only raises. -/
theorem step_kept {s t : State} (h : step s = .next t) :
    t.cfg = s.cfg ∧ t.strap = s.strap ∧ t.sscratch = s.sscratch ∧ t.memmode = s.memmode ∧ t.memreg = s.memreg ∧
    (s.flags.trap = true → t.flags.trap = true) ∧ (s.mode = .supervisor → t.mode = .supervisor) ∧
    t.runState = s.runState := by
  obtain ⟨-, p, e, effect⟩ := step_effect h
  cases effect <;> simp

/-- Settles O51: an effect moves `pc` by 2 or to the handler address, and `strap` is kept. -/
theorem stepKeepsThePcEven : Obligations.StepKeepsThePcEven := by
  intro s t pcEven strapEven h
  obtain ⟨-, strap, -⟩ := step_kept h
  obtain ⟨-, p, e, effect⟩ := step_effect h
  refine ⟨?pc, (congrArg (·.getLsbD 0) strap).trans strapEven⟩
  cases effect with
  | writesOne | writesTwo | stores =>
    rw [State.advance_pc, getLsbD_zero_add_two]
    simpa using pcEven
  | traps => exact (handlerAddress_getLsbD_zero _ _).trans strapEven

/-- Settles O52: each effect keeps the fields (`step_kept`) and the registers (`Effect.other_registers`). -/
theorem stepNeverTouchesTheseFields : Obligations.StepNeverTouchesTheseFields := by
  intro s t hd h
  obtain ⟨-, p, e, effect⟩ := step_effect h
  obtain ⟨cfg, strap, sscratch, memmode, memreg, raised⟩ := step_kept h
  exact ⟨cfg, strap, sscratch, memmode, memreg, fun r bound => effect.other_registers hd bound, raised⟩

/-- Settles O53: three of the effects advance, and the fourth is the trap, whose `sret` is the old `pc` under the decided
reading (D27). -/
theorem stepAdvancesOrTrapsPrecisely : Obligations.StepAdvancesOrTrapsPrecisely := by
  intro s t hd h
  obtain ⟨-, p, e, effect⟩ := step_effect h
  cases effect with
  | writesOne | writesTwo | stores => left; simp
  | traps c on =>
    have dec : s.cfg.dec = Decisions.decided := hd
    have handler : (handlerAddress s.cfg.dec s.strap).toNat = s.strap.toNat % 2 ^ 63 := by
      rw [dec, handlerAddress_decided_toNat]
    have saved : sretOf s.cfg.dec c s.pc = s.pc := by rw [dec, sretOf_decided]
    exact .inr ⟨on, handler, saved, rfl, rfl, rfl, rfl, rfl, c, congrArg (scauseEncode · c) dec⟩

end Sys2Proof.Machine
end

section
/-! PROOFS. What has no effect on a step: the registers `sscratch`, `memmode` and `memreg` (R40 to R42), and the mode
(R34, R220). One simulation serves both. -/

namespace Sys2Proof.Machine

/-- The state with other values in the fields that no step reads. -/
def State.withInert (s : State) (a b c : Word) (m : Mode) : State :=
  { s with sscratch := a, memmode := b, memreg := c, mode := m }

/-- The outcome `o'` of a step from mode `m` and other inert registers follows the outcome `o` from mode `mode`: where `o`
has a next state, so has `o'`, and the two differ in those fields alone. The modes are the same, because a trap set them,
or each is as it was. `step_withInert` ties it to `step`. -/
def Follows (mode : Mode) (a b c : Word) (m : Mode) (o o' : Host.Outcome State Fault Refusal) : Prop :=
  ∀ t, o = .next t → ∃ m', o' = .next (t.withInert a b c m') ∧ (m' = t.mode ∨ m' = m ∧ t.mode = mode)

section
variable {s : State} {a b c : Word} {m : Mode}

@[simp] theorem State.withInert_cfg : (s.withInert a b c m).cfg = s.cfg := rfl

@[simp] theorem State.hgp_withInert (k : Hgp) : (s.withInert a b c m).hgp k = s.hgp k := rfl

theorem State.setHgp_withInert (k : Hgp) (v : Word) :
    (s.withInert a b c m).setHgp k v = (s.setHgp k v).withInert a b c m := by
  by_cases discarded : hgpId s.cfg.dec k = 0#5 ∧ s.trapBit = false
  · have kept : s.setHgp k v = s := if_pos discarded
    rw [kept]
    exact if_pos discarded
  · have written : s.setHgp k v = { s with regs := s.regs.set _ v (hgpId s.cfg.dec k).isLt } := if_neg discarded
    rw [written]
    exact if_neg discarded

/-- A next state that keeps the mode and was computed alike follows. -/
theorem Follows.of_next {t t' : State} (same : t' = t.withInert a b c m) (mode : t.mode = s.mode) :
    Follows s.mode a b c m (.next t) (.next t') := by
  rintro _ ⟨⟩
  exact ⟨m, congrArg _ same, .inr ⟨rfl, mode⟩⟩

theorem Follows.fault (f : Fault) (o : Host.Outcome State Fault Refusal) : Follows s.mode a b c m (.fault f) o := by
  intro t h
  cases h

theorem Follows.writesOne (k : Hgp) (v : Word) :
    Follows s.mode a b c m (.next (s.setHgp k v).advance) (.next ((s.withInert a b c m).setHgp k v).advance) :=
  .of_next (by rw [State.setHgp_withInert]; rfl) (by simp)

theorem Follows.writesTwo (k : Hgp) (v : Word) (k' : Hgp) (v' : Word) :
    Follows s.mode a b c m (.next ((s.setHgp k v).setHgp k' v').advance)
      (.next (((s.withInert a b c m).setHgp k v).setHgp k' v').advance) :=
  .of_next (by rw [State.setHgp_withInert, State.setHgp_withInert]; rfl) (by simp)

theorem Follows.trapEntry (cause : Cause) (epc : Word) :
    Follows s.mode a b c m (trapEntry cause epc s) (trapEntry cause epc (s.withInert a b c m)) := by
  intro t h
  obtain ⟨on, rfl⟩ := trapEntry_next h
  exact ⟨.supervisor, if_pos on, .inl rfl⟩

theorem Follows.abandon (e : Abort) : Follows s.mode a b c m (abandon e s) (abandon e (s.withInert a b c m)) := by
  cases e with
  | trap cause => exact .trapEntry (.internal cause) s.pc
  | unspecified f => exact .fault f _

theorem memRead_withInert (off : BitVec 6) (ra : Idr) (n : Nat) :
    memRead (s.withInert a b c m) ((s.withInert a b c m).effectiveAddress off ra) n =
      memRead s (s.effectiveAddress off ra) n := rfl

theorem memWrite_withInert (off : BitVec 6) (ra : Idr) (n : Nat) (k : Hgp) :
    memWrite (s.withInert a b c m) ((s.withInert a b c m).effectiveAddress off ra) n ((s.withInert a b c m).hgp k) =
      (memWrite s (s.effectiveAddress off ra) n (s.hgp k)).map fun t => t.withInert a b c m := by
  cases h : accessAbort s.cfg (s.effectiveAddress off ra) n .write with
  | some e =>
    rw [memWrite_of_abort h]
    exact memWrite_of_abort (s := s.withInert a b c m) h
  | none =>
    rw [memWrite_of_none h]
    exact memWrite_of_none (s := s.withInert a b c m) h

/-- Execution reads none of the inert fields. -/
theorem exec_withInert (i : Instr) : Follows s.mode a b c m (exec i s) (exec i (s.withInert a b c m)) := by
  cases i
  case ld rd off ra =>
    simp only [exec, execLd, memRead_withInert]
    cases memRead s (s.effectiveAddress off ra) 2 with
    | ok v => exact .writesOne rd _
    | error e => exact .abandon e
  case lo rd off ra =>
    simp only [exec, execLo, memRead_withInert]
    cases memRead s (s.effectiveAddress off ra) 8 with
    | ok v => exact .writesOne rd _
    | error e => exact .abandon e
  case sd rs off ra =>
    simp only [exec, execSd, memWrite_withInert]
    cases h : memWrite s (s.effectiveAddress off ra) 2 (s.hgp rs) with
    | ok t =>
      obtain ⟨-, rfl⟩ := memWrite_ok h
      exact .of_next rfl rfl
    | error e => exact .abandon e
  case so rs off ra =>
    simp only [exec, execSo, memWrite_withInert]
    cases h : memWrite s (s.effectiveAddress off ra) 8 (s.hgp rs) with
    | ok t =>
      obtain ⟨-, rfl⟩ := memWrite_ok h
      exact .of_next rfl rfl
    | error e => exact .abandon e
  case divR r0 r1 =>
    simp only [exec, execDivR, State.withInert_cfg, State.hgp_withInert]
    cases divide s.cfg.dec (s.hgp r1) (s.hgp r0) with
    | some q => exact .writesOne r1 q
    | none => exact .fault _ _
  case divI rd imm =>
    simp only [exec, execDivI, State.withInert_cfg, State.hgp_withInert]
    cases divide s.cfg.dec (s.hgp rd) (immSigned imm) with
    | some q => exact .writesOne rd q
    | none => exact .fault _ _
  case notR r0 r1 =>
    simp only [exec, execNotR, State.withInert_cfg, State.hgp_withInert]
    cases s.cfg.dec.notReading with
    | complementOfR0 | complementOfAnd => exact .writesOne r1 _
    | bothInPlace => exact .writesTwo r0 _ r1 _
  all_goals exact .writesOne _ _

theorem fetch_withInert : fetch (s.withInert a b c m) (s.withInert a b c m).pc = fetch s s.pc := rfl

theorem runInstruction_withInert : Follows s.mode a b c m (runInstruction s) (runInstruction (s.withInert a b c m)) := by
  simp only [runInstruction, fetch_withInert]
  cases fetch s s.pc with
  | error e => exact .abandon e
  | ok w =>
    simp only [executeParcel, State.withInert_cfg]
    cases decode s.cfg.dec w with
    | ok i => exact exec_withInert i
    | error r => exact .fault _ _

theorem State.atBoundary_withInert : (s.withInert a b c m).atBoundary = s.atBoundary.withInert a b c m := by
  have env : (s.withInert a b c m).env = s.env := rfl
  simp only [State.atBoundary, env]
  cases s.env <;> rfl

/-- A step from other inert registers and another mode. -/
theorem step_withInert : Follows s.mode a b c m (step s) (step (s.withInert a b c m)) := by
  have runState : (s.withInert a b c m).runState = s.runState := rfl
  have taken : (s.withInert a b c m).interruptTaken = s.interruptTaken := rfl
  simp only [step, cycle, runState, taken, State.atBoundary_withInert, ← s.atBoundary_mode]
  cases s.runState with
  | stopped => exact .fault _ _
  | running =>
    cases s.interruptTaken with
    | none => exact runInstruction_withInert
    | some cause =>
      exact Follows.trapEntry (s := { s.atBoundary with pending := s.atBoundary.pending.clear cause }) _ _

end

/-- Settles O54: with the mode as it was, both cases of `Follows` give the mode of the next state. -/
theorem inertRegistersHaveNoEffect : Obligations.InertRegistersHaveNoEffect := by
  intro s t a b c h
  obtain ⟨m', h', mode⟩ := step_withInert (a := a) (b := b) (c := c) (m := s.mode) t h
  obtain rfl : m' = t.mode := mode.elim id fun ⟨m'_eq, t_eq⟩ => m'_eq.trans t_eq.symm
  exact h'

/-- Settles O55: the inert registers keep their values in a step, so that only the mode differs. -/
theorem modeHasNoEffectOnAStep : Obligations.ModeHasNoEffectOnAStep := by
  intro s t m h
  obtain ⟨m', h', -⟩ := step_withInert (a := s.sscratch) (b := s.memmode) (c := s.memreg) (m := m) t h
  obtain ⟨-, -, sscratch, memmode, memreg, -⟩ := step_kept h
  have same : t.withInert s.sscratch s.memmode s.memreg m' = { t with mode := m' } := by
    rw [← sscratch, ← memmode, ← memreg]
    rfl
  exact ⟨m', h'.trans (congrArg _ same)⟩

end Sys2Proof.Machine
end

section
/-! PROOFS. The safe domains, where every reading of the parameters agrees (R15, R97, R121, R135, R142, R143, R213), and the
addresses and modes of the control and status registers (R36, R220). -/

namespace Sys2Proof.Machine

/-! ## Division (R142) -/

section
variable {n d : Word} (n_low : n.getLsbD 63 = false) (d_low : d.getLsbD 63 = false)
include n_low

/-- With bit 63 clear the signed and the unsigned reading of a word are the same number. -/
theorem toInt_eq_toNat_of_low : n.toInt = n.toNat :=
  BitVec.toInt_eq_toNat_of_msb n_low

include d_low

/-- Both ways of rounding, and the unsigned reading, are the division of natural numbers. -/
theorem quotient_of_low (m : DivMode) : quotient m n d = BitVec.ofNat 64 (n.toNat / d.toNat) := by
  cases m with
  | unsigned => rfl
  | signedTowardZero =>
    rw [quotient, toInt_eq_toNat_of_low n_low, toInt_eq_toNat_of_low d_low, ← Int.ofNat_tdiv, BitVec.ofInt_natCast]
  | signedTowardMinusInf =>
    rw [quotient, toInt_eq_toNat_of_low n_low, toInt_eq_toNat_of_low d_low, ← Int.ofNat_fdiv, BitVec.ofInt_natCast]

omit d_low in
theorem divisionCorner_of_low (nonzero : d ≠ 0#64) (m : DivMode) : divisionCorner m n d = false := by
  have notMost : n ≠ mostNegative := by
    rintro rfl
    exact absurd n_low (by decide)
  cases m <;> simp [divisionCorner, nonzero, notMost]

end

/-- Settles O36: no reading has a corner there, and `quotient_of_low` is a number of 64 bits. -/
theorem divisionReadingsAgreeInTheSafeDomain : Obligations.DivisionReadingsAgreeInTheSafeDomain := by
  intro p n d n_low d_low nonzero
  have fits : n.toNat / d.toNat < 2 ^ 64 := Nat.lt_of_le_of_lt (Nat.div_le_self _ _) n.isLt
  refine ⟨BitVec.ofNat 64 (n.toNat / d.toNat), ?divides, ?exact⟩
  case divides => rw [divide, divisionCorner_of_low n_low nonzero, quotient_of_low n_low d_low]; rfl
  case exact => rw [BitVec.toNat_ofNat, Nat.mod_eq_of_lt fits]

/-! ## Shifts and `cgc.not` (R143, R135) -/

theorem shiftAmount_of_small (p : Decisions) {a : Word} (small : a.toNat < 64) : shiftAmount p a = a.toNat := by
  unfold shiftAmount
  split
  · exact Nat.mod_eq_of_lt small
  · exact Nat.min_eq_left (Nat.le_of_lt small)

/-- Copies of bit 63 are zeros where it is clear, and a shift by 0 brings nothing in. -/
theorem shiftRight_of_low (p : Decisions) {v : Word} {k : Nat} (low : v.getLsbD 63 = false ∨ k = 0) :
    shiftRight p v k = v >>> k := by
  unfold shiftRight
  split
  · rfl
  · obtain clear | rfl := low
    · exact BitVec.sshiftRight_eq_of_msb_false clear
    · simp

/-- Writing a register twice is writing it once, for register 0 in a trap or out of it too. -/
theorem State.writeReg_writeReg (s : State) (r : RegId) (u v : Word) :
    (s.writeReg r u).writeReg r v = s.writeReg r v := by
  by_cases discarded : r = 0#5 ∧ s.trapBit = false
  · have kept : s.writeReg r u = s := if_pos discarded
    rw [kept]
  · have written (x : Word) : s.writeReg r x = { s with regs := s.regs.set r.toNat x r.isLt } := if_neg discarded
    rw [written u, written v]
    exact (if_neg discarded).trans (by rw [Vector.set_set])

theorem State.setHgp_setHgp (s : State) (k : Hgp) (u v : Word) : (s.setHgp k u).setHgp k v = s.setHgp k v := by
  rw [State.setHgp, State.setHgp_cfg]
  exact s.writeReg_writeReg _ u v

/-- Settles O37: each reading in turn. -/
theorem shiftAndNotReadingsAgreeInTheSafeDomain : Obligations.ShiftAndNotReadingsAgreeInTheSafeDomain := by
  refine ⟨fun p a small => shiftAmount_of_small p small, fun p v k _ low => ?right, fun s k => ?not⟩
  case right => rw [shiftRight_of_low p low, BitVec.toNat_ushiftRight, Nat.shiftRight_eq_div_pow]
  case not =>
    rw [exec, execNotR]
    cases s.cfg.dec.notReading with
    | complementOfR0 => rfl
    | bothInPlace => exact congrArg (fun t : State => Host.Outcome.next t.advance) (s.setHgp_setHgp k _ _)
    | complementOfAnd =>
      simp only [BitVec.and_self]
      rfl

/-! ## Offset, loaded halfword and handler address (R97, R121, R213) -/

theorem offsetValue_toNat_of_low (p : Decisions) {off : BitVec 6} (low : off.getLsbD 5 = false) :
    (offsetValue p off).toNat = off.toNat := by
  have extended : (off.zeroExtend 64).toNat = off.toNat := BitVec.toNat_setWidth_of_le (by decide)
  unfold offsetValue
  split
  · exact extended
  · have msb : off.msb = false := low
    rw [BitVec.signExtend_eq_setWidth_of_msb_false msb]
    exact extended

/-- Bits 63:16 are cleared, copies of a clear bit 15, or the old ones, which are zero. -/
theorem extendHalfword_toNat_of_low (p : Decisions) {old v : Word} (low : v.getLsbD 15 = false)
    (upper : p.ldExt ≠ .keep ∨ old.toNat < 2 ^ 16) : (extendHalfword p old v).toNat = v.toNat % 2 ^ 16 := by
  have half : (v.extractLsb' 0 16).toNat = v.toNat % 2 ^ 16 := by
    rw [toNat_extractLsb'_eq_div_mod, pow_zero, Nat.div_one]
  have extended : ((v.extractLsb' 0 16).zeroExtend 64).toNat = v.toNat % 2 ^ 16 :=
    (BitVec.toNat_setWidth_of_le (by decide)).trans half
  unfold extendHalfword
  split
  · exact extended
  · have msb : (v.extractLsb' 0 16).msb = false := by
      rw [BitVec.msb_eq_getLsbD_last, BitVec.getLsbD_extractLsb']
      exact low
    rw [BitVec.signExtend_eq_setWidth_of_msb_false msb]
    exact extended
  · next keep =>
    have zero : old.toNat / 2 ^ 16 = 0 := Nat.div_eq_of_lt (upper.resolve_left fun other => other keep)
    rw [toNat_append_eq_add, half, toNat_extractLsb'_eq_div_mod, zero, Nat.zero_mod, Nat.zero_mul, Nat.zero_add]

theorem handlerAddress_toNat_of_low (p : Decisions) {strap : Word} (low : strap.getLsbD 62 = false) :
    (handlerAddress p strap).toNat = strap.toNat % 2 ^ 63 := by
  have bit62 : strap.extractLsb' 62 1 = 0b0#1 := by
    apply BitVec.eq_of_getLsbD_eq
    intro i hi
    obtain rfl : i = 0 := by omega
    rw [BitVec.getLsbD_extractLsb']
    exact low
  unfold handlerAddress
  split
  · exact handlerAddress_decided_toNat strap
  · rw [bit62]
    exact handlerAddress_decided_toNat strap

/-- Settles O38. -/
theorem addressAndLoadReadingsAgreeInTheSafeDomain : Obligations.AddressAndLoadReadingsAgreeInTheSafeDomain :=
  ⟨fun p _ low => offsetValue_toNat_of_low p low, fun p _ _ low upper => extendHalfword_toNat_of_low p low upper,
    fun p _ low => handlerAddress_toNat_of_low p low⟩

/-! ## Control and status registers (R36, R220) -/

theorem csrAt?_eq_some_iff (d : Decisions) (a : Nat) (c : Csr) :
    csrAt? d a = some c ↔ a = c.address.toNat ∧ a < 2 ^ d.csrAddrBits := by
  have bound : c.address.toNat < 2 ^ 24 := c.address.isLt
  unfold csrAt?
  split
  case isTrue inside =>
    rw [Csr.ofAddress?_eq_some_iff, BitVec.toNat_eq, BitVec.toNat_ofNat, Nat.mod_eq_of_lt inside.2]
    exact (and_iff_left inside.1).symm
  case isFalse outside =>
    refine iff_of_false nofun ?_
    rintro ⟨rfl, configured⟩
    exact outside ⟨configured, bound⟩

/-- Settles O57: the decided width holds every listed address. -/
theorem csrAddressWidthAndModes : Obligations.CsrAddressWidthAndModes := by
  refine ⟨fun a c => ?decided, csrAt?_eq_some_iff, fun _ => ⟨rfl, rfl⟩⟩
  rw [csrAt?_eq_some_iff]
  refine and_iff_left_of_imp ?_
  rintro rfl
  exact c.address.isLt

end Sys2Proof.Machine
end
